-- ==== Sys2Proof/Word.lean ====
section
/-! DEFINITION. The word types of the core. Every value is unsigned (00_scope.md R6); bit 0 is the least
significant bit (R5). -/

namespace Sys2Proof

/-- An 8-bit value: a general register, a timer, a byte of memory, an immediate `kk`. -/
abbrev Byte := BitVec 8

/-- A 16-bit value: `I`, `PC`, a call-stack entry, an instruction word. -/
abbrev Word := BitVec 16

/-- A 4-bit value: one hexadecimal digit of an instruction word. -/
abbrev Nibble := BitVec 4

/-- A general register's index: always a 4-bit instruction field (10_state.md R11). -/
abbrev Reg := BitVec 4

/-- A 12-bit address field `nnn` (30_encoding.md R51). -/
abbrev Addr := BitVec 12

/-- A key's number, 0 to 15 (45_keypad.md R130). -/
abbrev Key := BitVec 4

/-- `VF`, register 15, the implicit flag register (10_state.md R12). -/
abbrev vf : Reg := 0xF#4

end Sys2Proof
end

