-- ==== Sys2Proof/Syntax.lean ====
section
/-! DEFINITION. The 35 instructions, one constructor per row of spec/opcode_table.json, in the table's order
(30_encoding.md R55). Each operand has exactly the width of its field (R51). -/

namespace Sys2Proof

/-- An instruction with its operands. `shrVx` and `shlVx` keep the field `y` that they ignore
(30_encoding.md R58), so that decoding drops no bit of a word. -/
inductive Instr where
  /-- 0000 `HALT` -/
  | halt
  /-- 00E0 `CLS` -/
  | cls
  /-- 00EE `RET` -/
  | ret
  /-- 1nnn `JP addr` -/
  | jpAddr (nnn : Addr)
  /-- 2nnn `CALL addr` -/
  | callAddr (nnn : Addr)
  /-- 3xkk `SE Vx,kk` -/
  | seVxKk (x : Reg) (kk : Byte)
  /-- 4xkk `SNE Vx,kk` -/
  | sneVxKk (x : Reg) (kk : Byte)
  /-- 5xy0 `SE Vx,Vy` -/
  | seVxVy (x y : Reg)
  /-- 6xkk `LD Vx,kk` -/
  | ldVxKk (x : Reg) (kk : Byte)
  /-- 7xkk `ADD Vx,kk` -/
  | addVxKk (x : Reg) (kk : Byte)
  /-- 8xy0 `LD Vx,Vy` -/
  | ldVxVy (x y : Reg)
  /-- 8xy1 `OR Vx,Vy` -/
  | orVxVy (x y : Reg)
  /-- 8xy2 `AND Vx,Vy` -/
  | andVxVy (x y : Reg)
  /-- 8xy3 `XOR Vx,Vy` -/
  | xorVxVy (x y : Reg)
  /-- 8xy4 `ADD Vx,Vy` -/
  | addVxVy (x y : Reg)
  /-- 8xy5 `SUB Vx,Vy` -/
  | subVxVy (x y : Reg)
  /-- 8xy6 `SHR Vx` -/
  | shrVx (x y : Reg)
  /-- 8xy7 `SUBN Vx,Vy` -/
  | subnVxVy (x y : Reg)
  /-- 8xyE `SHL Vx` -/
  | shlVx (x y : Reg)
  /-- 9xy0 `SNE Vx,Vy` -/
  | sneVxVy (x y : Reg)
  /-- Annn `LD I,addr` -/
  | ldIAddr (nnn : Addr)
  /-- Bnnn `JP V0,addr` -/
  | jpV0Addr (nnn : Addr)
  /-- Cxkk `RND Vx,kk` -/
  | rndVxKk (x : Reg) (kk : Byte)
  /-- Dxyn `DRW Vx,Vy,n` -/
  | drwVxVyN (x y : Reg) (n : Nibble)
  /-- Ex9E `SKP Vx` -/
  | skpVx (x : Reg)
  /-- ExA1 `SKNP Vx` -/
  | sknpVx (x : Reg)
  /-- Fx07 `LD Vx,DT` -/
  | ldVxDt (x : Reg)
  /-- Fx0A `LD Vx,K` -/
  | ldVxK (x : Reg)
  /-- Fx15 `LD DT,Vx` -/
  | ldDtVx (x : Reg)
  /-- Fx18 `LD ST,Vx` -/
  | ldStVx (x : Reg)
  /-- Fx1E `ADD I,Vx` -/
  | addIVx (x : Reg)
  /-- Fx29 `LD F,Vx` -/
  | ldFVx (x : Reg)
  /-- Fx33 `LD B,Vx` -/
  | ldBVx (x : Reg)
  /-- Fx55 `LD [I],Vx` -/
  | ldMemVx (x : Reg)
  /-- Fx65 `LD Vx,[I]` -/
  | ldVxMem (x : Reg)
  deriving DecidableEq, Repr

end Sys2Proof
end

