-- ==== Sys2Proof/Decode.lean ====
section
/-! DEFINITION. The decoder and the encoder (30_encoding.md). The decoder is the opcode map of R55 as a list of
rows, searched for the row with `w and mask = match` (R54); a word no row matches is illegal (R56). -/

namespace Sys2Proof

/-! ## Fields (R51) -/

/-- `x`, bits 11 to 8. -/
def fieldX (w : Word) : Reg := w.extractLsb' 8 4

/-- `y`, bits 7 to 4. -/
def fieldY (w : Word) : Reg := w.extractLsb' 4 4

/-- `n`, bits 3 to 0. -/
def fieldN (w : Word) : Nibble := w.extractLsb' 0 4

/-- `nnn`, bits 11 to 0. -/
def fieldNnn (w : Word) : Addr := w.extractLsb' 0 12

/-- `kk`, bits 7 to 0. -/
def fieldKk (w : Word) : Byte := w.extractLsb' 0 8

/-! ## The opcode map (R55) -/

/-- A row of the opcode map: the words `w` with `w and mask = bits` are the instruction `build w`. -/
structure Row where
  bits : Word
  mask : Word
  build : Word → Instr

/-- Rows of format `FIX`: every digit fixed (R52). -/
def rowFix (bits : Word) (i : Instr) : Row := ⟨bits, 0xFFFF, fun _ => i⟩

/-- Rows of format `ADDR`: the first digit fixed, operand `nnn` (R52). -/
def rowAddr (bits : Word) (f : Addr → Instr) : Row := ⟨bits, 0xF000, fun w => f (fieldNnn w)⟩

/-- Rows of format `XKK`: the first digit fixed, operands `x` and `kk` (R52). -/
def rowXkk (bits : Word) (f : Reg → Byte → Instr) : Row :=
  ⟨bits, 0xF000, fun w => f (fieldX w) (fieldKk w)⟩

/-- Rows of format `XY`: the first and last digits fixed, operands `x` and `y` (R52). -/
def rowXy (bits : Word) (f : Reg → Reg → Instr) : Row :=
  ⟨bits, 0xF00F, fun w => f (fieldX w) (fieldY w)⟩

/-- Rows of format `XYN`: the first digit fixed, operands `x`, `y` and `n` (R52). -/
def rowXyn (bits : Word) (f : Reg → Reg → Nibble → Instr) : Row :=
  ⟨bits, 0xF000, fun w => f (fieldX w) (fieldY w) (fieldN w)⟩

/-- Rows of format `X`: all digits fixed but the second, operand `x` (R52). -/
def rowX (bits : Word) (f : Reg → Instr) : Row := ⟨bits, 0xF0FF, fun w => f (fieldX w)⟩

/-- The opcode map, in the order of R55. -/
def opcodeMap : List Row :=
  [ rowFix 0x0000 .halt, rowFix 0x00E0 .cls, rowFix 0x00EE .ret,
    rowAddr 0x1000 .jpAddr, rowAddr 0x2000 .callAddr,
    rowXkk 0x3000 .seVxKk, rowXkk 0x4000 .sneVxKk, rowXy 0x5000 .seVxVy,
    rowXkk 0x6000 .ldVxKk, rowXkk 0x7000 .addVxKk ] ++
  [ rowXy 0x8000 .ldVxVy, rowXy 0x8001 .orVxVy, rowXy 0x8002 .andVxVy, rowXy 0x8003 .xorVxVy,
    rowXy 0x8004 .addVxVy, rowXy 0x8005 .subVxVy, rowXy 0x8006 .shrVx, rowXy 0x8007 .subnVxVy,
    rowXy 0x800E .shlVx, rowXy 0x9000 .sneVxVy ] ++
  [ rowAddr 0xA000 .ldIAddr, rowAddr 0xB000 .jpV0Addr, rowXkk 0xC000 .rndVxKk,
    rowXyn 0xD000 .drwVxVyN, rowX 0xE09E .skpVx, rowX 0xE0A1 .sknpVx ] ++
  [ rowX 0xF007 .ldVxDt, rowX 0xF00A .ldVxK, rowX 0xF015 .ldDtVx, rowX 0xF018 .ldStVx,
    rowX 0xF01E .addIVx, rowX 0xF029 .ldFVx, rowX 0xF033 .ldBVx, rowX 0xF055 .ldMemVx,
    rowX 0xF065 .ldVxMem ]

/-- Whether the word `w` selects the row `r` (R52). -/
def rowMatches (w : Word) (r : Row) : Bool := w &&& r.mask == r.bits

/-! ## Decoding (R54, R56) -/

/-- The instruction of a word, `none` for an illegal word. -/
def decodeWord (w : Word) : Option Instr := (opcodeMap.find? (rowMatches w)).map fun r => r.build w

/-- Why bytes are not an instruction. -/
inductive DecodeError where
  /-- Fewer than the 2 bytes every instruction has (R50). -/
  | truncated
  /-- The word matches no row: `UNRECOGNIZED_OPCODE` (R56). -/
  | unrecognizedOpcode (w : Word)
  deriving DecidableEq, Repr

/-- The 16-bit word of two bytes, the first being bits 15 to 8 (20_memory.md R34). -/
def wordOfBytes (hi lo : Byte) : Word := hi ++ lo

/-- The two bytes of a word in memory order (30_encoding.md R50). -/
def bytesOfWord (w : Word) : List Byte := [w.extractLsb' 8 8, w.extractLsb' 0 8]

/-- The instruction at the head of a list of bytes, and the bytes after it. -/
def decode : List Byte → Except DecodeError (Instr × List Byte)
  | hi :: lo :: rest =>
    match decodeWord (wordOfBytes hi lo) with
    | some i => .ok (i, rest)
    | none => .error (.unrecognizedOpcode (wordOfBytes hi lo))
  | _ => .error .truncated

/-! ## Encoding (R52, R55) -/

/-- Format `ADDR`: `op nnn`. -/
def wordAddr (op : Nibble) (nnn : Addr) : Word := op ++ nnn

/-- Format `XKK`: `op x kk`. -/
def wordXkk (op : Nibble) (x : Reg) (kk : Byte) : Word := op ++ x ++ kk

/-- Formats `XY` and `XYN`: `op x y n`. -/
def wordXyn (op : Nibble) (x y : Reg) (n : Nibble) : Word := op ++ x ++ y ++ n

/-- The word of an instruction. -/
def encode : Instr → Word
  | .halt => 0x0000
  | .cls => 0x00E0
  | .ret => 0x00EE
  | .jpAddr nnn => wordAddr 0x1 nnn
  | .callAddr nnn => wordAddr 0x2 nnn
  | .seVxKk x kk => wordXkk 0x3 x kk
  | .sneVxKk x kk => wordXkk 0x4 x kk
  | .seVxVy x y => wordXyn 0x5 x y 0x0
  | .ldVxKk x kk => wordXkk 0x6 x kk
  | .addVxKk x kk => wordXkk 0x7 x kk
  | .ldVxVy x y => wordXyn 0x8 x y 0x0
  | .orVxVy x y => wordXyn 0x8 x y 0x1
  | .andVxVy x y => wordXyn 0x8 x y 0x2
  | .xorVxVy x y => wordXyn 0x8 x y 0x3
  | .addVxVy x y => wordXyn 0x8 x y 0x4
  | .subVxVy x y => wordXyn 0x8 x y 0x5
  | .shrVx x y => wordXyn 0x8 x y 0x6
  | .subnVxVy x y => wordXyn 0x8 x y 0x7
  | .shlVx x y => wordXyn 0x8 x y 0xE
  | .sneVxVy x y => wordXyn 0x9 x y 0x0
  | .ldIAddr nnn => wordAddr 0xA nnn
  | .jpV0Addr nnn => wordAddr 0xB nnn
  | .rndVxKk x kk => wordXkk 0xC x kk
  | .drwVxVyN x y n => wordXyn 0xD x y n
  | .skpVx x => wordXkk 0xE x 0x9E
  | .sknpVx x => wordXkk 0xE x 0xA1
  | .ldVxDt x => wordXkk 0xF x 0x07
  | .ldVxK x => wordXkk 0xF x 0x0A
  | .ldDtVx x => wordXkk 0xF x 0x15
  | .ldStVx x => wordXkk 0xF x 0x18
  | .addIVx x => wordXkk 0xF x 0x1E
  | .ldFVx x => wordXkk 0xF x 0x29
  | .ldBVx x => wordXkk 0xF x 0x33
  | .ldMemVx x => wordXkk 0xF x 0x55
  | .ldVxMem x => wordXkk 0xF x 0x65

/-- The bytes of an instruction in memory order. -/
def encodeBytes (i : Instr) : List Byte := bytesOfWord (encode i)

/-! ## The host's probe of the decoder -/

/-- The bytes of the instruction whose table bits are the low `nbits` bits of `w`. The table numbers
a one-word instruction's bits as the word itself does, so the word is laid out big-endian. -/
def tableBytes (nbits w : Nat) : List Byte := bytesOfWord (BitVec.ofNat 16 (w % 2 ^ nbits))

/-- The instruction the decoder reads from an instruction whose table bits are `w`. -/
def decodeTableWord (nbits w : Nat) : Option Instr :=
  match decode (tableBytes nbits w) with
  | .ok (i, _) => some i
  | .error _ => none

end Sys2Proof
end

