-- ==== Sys2Proof/Config.lean ====
section
/-! DEFINITION. What is fixed for the machine (00_scope.md R4) and the free values the host supplies
(10_state.md R21). -/

namespace Sys2Proof

/-- `MEM_SIZE`, the bytes of memory (00_scope.md R4). -/
abbrev Config.memSize : Nat := 4096

/-- `PROG_BASE`, the load address and the reset value of `PC` (00_scope.md R4). -/
abbrev Config.progBase : Nat := 0x200

/-- `MAX_IMAGE`, the largest program image in bytes (00_scope.md R4). -/
abbrev Config.maxImage : Nat := 3584

/-- The font parameter `FONT`: 16 glyphs of 5 bytes (00_scope.md R4). -/
abbrev Font := Vector Byte 80

/-- PRESUMED. The default of `FONT`: the spec gives the table from general knowledge
(93_implementation_defined.md G1); log entry 4. -/
def Config.defaultFont : Font :=
  #v[0xF0, 0x90, 0x90, 0x90, 0xF0,  0x20, 0x60, 0x20, 0x20, 0x70,
     0xF0, 0x10, 0xF0, 0x80, 0xF0,  0xF0, 0x10, 0xF0, 0x10, 0xF0,
     0x90, 0x90, 0xF0, 0x10, 0x10,  0xF0, 0x80, 0xF0, 0x10, 0xF0,
     0xF0, 0x80, 0xF0, 0x90, 0xF0,  0xF0, 0x10, 0x20, 0x40, 0x40,
     0xF0, 0x90, 0xF0, 0x90, 0xF0,  0xF0, 0x90, 0xF0, 0x10, 0xF0,
     0xF0, 0x90, 0xF0, 0x90, 0x90,  0xE0, 0x90, 0xE0, 0x90, 0xE0,
     0xF0, 0x80, 0x80, 0x80, 0xF0,  0xE0, 0x90, 0x90, 0x90, 0xE0,
     0xF0, 0x80, 0xF0, 0x80, 0xF0,  0xF0, 0x80, 0xF0, 0x80, 0x80]

/-- What the host would answer if asked now (10_state.md R21): for each key whether it is down
(`is_key_down`), the key whose press it reports to a waiting core, if any (`wait_for_key`), and the
next random byte (`rnd`). -/
structure HostAnswers where
  keysDown : Vector Bool 16
  pressed : Option Key
  random : Byte
  deriving DecidableEq, Repr, Inhabited

/-- FREE VALUE. The host's successive answers: nothing constrains them (45_keypad.md R130,
42_arith_logic.md R103, 92_eei_decisions.md D18, D25); log entry 3. -/
opaque Config.hostAnswers : Nat → HostAnswers

end Sys2Proof
end

