-- ==== Sys2Proof/Machine/State.lean ====
section
/-! DEFINITION. The state of the core (10_state.md R10), its stops, and reset (R23). -/

namespace Sys2Proof.Machine

/-- The causes of a fatal error with the `info` each records (60_exceptions.md R141). -/
inductive Cause where
  /-- A fetched word outside the 35 patterns (R142). -/
  | unrecognizedOpcode (w : Word)
  /-- A fetch with `PC + 1 > 4095` (R143). -/
  | oobFetch (pc : Word)
  /-- A sprite or a register load reaching above 4095 (R144). -/
  | oobMemRead (i : Word)
  /-- A BCD or register store reaching above 4095 (R145). -/
  | oobMemWrite (i : Word)
  /-- `CALL` with `SP = 16` (R146). -/
  | stackOverflow
  /-- `RET` with `SP = 0` (R147). -/
  | stackUnderflow
  /-- `SKP` or `SKNP` with `V[x] > 15` (R148). -/
  | keyRange (vx : Byte)
  deriving DecidableEq, Repr

/-- Whether the core may take a step (10_state.md R20). -/
inductive Status where
  | running
  | halted
  | faulted (cause : Cause)
  deriving DecidableEq, Repr

/-- The framebuffer: 32 rows of 64 pixels, `true` = on (10_state.md R18). -/
abbrev Framebuffer := Vector (Vector Bool 64) 32

/-- The state of the machine: the ten elements of 10_state.md R10, then four fields of the model's own
(the parameter `FONT`, the host's answers, and the display events). -/
structure State where
  /-- `V[0..15]` (R11). -/
  v : Vector Byte 16
  /-- `I` (R13). -/
  i : Word
  /-- `PC` (R14). -/
  pc : Word
  /-- `stack[0..15]` (R15). -/
  stack : Vector Word 16
  /-- `SP`, the count of pushed frames (R15). -/
  sp : Fin 17
  /-- `DT` (R16). -/
  dt : Byte
  /-- `ST` (R17). -/
  st : Byte
  /-- `fb` (R18). -/
  fb : Framebuffer
  /-- `mem` (R19): the bytes that differ from their reset contents, by rising address. -/
  mem : List Host.Cell
  /-- `status` (R20). -/
  status : Status
  /-- The parameter `FONT`, fixed for the machine (00_scope.md R4); log entry 4. -/
  font : Font
  /-- What the host would answer if asked now (R21): free values; log entry 3. -/
  host : HostAnswers
  /-- How many of `Config.hostAnswers` have been taken; log entry 3. -/
  draws : Nat
  /-- The display events, newest first (44_display.md R124); log entry 5. -/
  display : List Framebuffer
  deriving DecidableEq, Repr

/-- Why `step` answers no next state although an instruction is not to blame: the run has ended.
Both are raised by `step` alone. -/
inductive Fault where
  /-- A step was asked of a core that is `HALTED`. SAFE: no step is defined there (10_state.md R20,
  92_eei_decisions.md D23). -/
  | halted
  /-- A step was asked of a core that is `FAULTED(cause)`. SAFE: no step is defined there (R20, D23). -/
  | faulted (cause : Cause)
  deriving DecidableEq, Repr

/-- Why something is given no meaning. -/
inductive Refusal where
  /-- Raised by an arm of `exec` whose instruction has no meaning yet (no arm does now). SAFE. -/
  | notModelled (mnemonic : String)
  /-- Raised by `boot` for a program image of more than 3584 bytes: the machine is not started with it
  (70_reset_and_hazards.md R162, D21). SAFE. -/
  | imageTooLong
  deriving DecidableEq, Repr

/-- What a step, an instruction and a boot answer. -/
abbrev Result := Host.Outcome State Fault Refusal

/-- All pixels off. -/
def blankScreen : Framebuffer := Vector.replicate 32 (Vector.replicate 64 false)

/-- The machine right after reset with the font `f`, no image loaded (10_state.md R23). -/
def State.resetWith (f : Font) : State where
  v := Vector.replicate 16 0
  i := 0
  pc := 0x200
  stack := Vector.replicate 16 0
  sp := 0
  dt := 0
  st := 0
  fb := blankScreen
  mem := []
  status := .running
  font := f
  host := Config.hostAnswers 0
  draws := 1
  display := []

/-- The machine right after reset, with the default font (log entry 4). -/
def State.reset : State := State.resetWith Config.defaultFont

end Sys2Proof.Machine
end

