-- ==== Sys2Proof/Machine/Memory.lean ====
section
/-! DEFINITION. Memory as a list of cells in one canonical form, and the access primitives of
20_memory.md R32. -/

namespace Sys2Proof.Machine

/-- What an unlisted address reads as: its reset contents, `FONT` at 0 to 79 and zero elsewhere
(20_memory.md R31, 10_state.md R23). -/
def Memory.base (f : Font) (a : Nat) : Byte := if h : a < 80 then f[a] else 0

/-- The byte a list holds for an address, if it lists one. -/
def Memory.lookup : List Host.Cell → Nat → Option Byte
  | [], _ => none
  | c :: m, a => if a = c.1 then some c.2 else Memory.lookup m a

/-- `mem[a]` (00_scope.md R7). -/
def Memory.read (f : Font) (m : List Host.Cell) (a : Nat) : Byte :=
  (Memory.lookup m a).getD (Memory.base f a)

/-- Lists `v` at `a`, keeping the addresses rising. -/
def Memory.insert : List Host.Cell → Nat → Byte → List Host.Cell
  | [], a, v => [(a, v)]
  | c :: m, a, v =>
    if a < c.1 then (a, v) :: c :: m
    else if a = c.1 then (a, v) :: m
    else c :: Memory.insert m a v

/-- Lists nothing at `a`. -/
def Memory.erase (m : List Host.Cell) (a : Nat) : List Host.Cell := m.filter fun c => c.1 != a

/-- `mem[a] <- v`: writing the byte an unlisted address reads as removes the entry. -/
def Memory.write (f : Font) (m : List Host.Cell) (a : Nat) (v : Byte) : List Host.Cell :=
  if v = Memory.base f a then Memory.erase m a else Memory.insert m a v

/-- The canonical form: every cell lies in memory, differs from its reset contents, and has a lower
address than all the cells after it. -/
def Memory.wf (f : Font) : List Host.Cell → Bool
  | [] => true
  | c :: m =>
    decide (c.1 < Config.memSize) && decide (c.2 ≠ Memory.base f c.1) &&
      m.all (fun d => decide (c.1 < d.1)) && Memory.wf f m

/-- `mem[a]` of a state, with no bounds check: for addresses a rule has checked (00_scope.md R7). -/
def State.readByte (s : State) (a : Nat) : Byte := Memory.read s.font s.mem a

/-- `mem[a] <- v` with no bounds check. -/
def State.writeByte (s : State) (a : Nat) (v : Byte) : State :=
  { s with mem := Memory.write s.font s.mem a v }

/-- Writes bytes at successive addresses from `a`. -/
def State.writeBytes (s : State) (a : Nat) : List Byte → State
  | [] => s
  | b :: bs => (s.writeByte a b).writeBytes (a + 1) bs

/-- Whether `n` bytes from `a` all lie in memory. The sum is of natural numbers and never wraps
(20_memory.md R32, R33); no byte is out of bounds when there is none. -/
def inBounds (a n : Nat) : Bool := decide (n = 0 ∨ a + n ≤ Config.memSize)

/-- `MemRead` of `n` bytes, checked as a whole; `none` is the Out-of-Bounds Access (R32). -/
def State.memRead (s : State) (a n : Nat) : Option (List Byte) :=
  if inBounds a n then some ((List.range n).map fun k => s.readByte (a + k)) else none

/-- `MemWrite` of successive bytes, checked as a whole before the first (R32, R33). -/
def State.memWrite (s : State) (a : Nat) (bs : List Byte) : Option State :=
  if inBounds a bs.length then some (s.writeBytes a bs) else none

end Sys2Proof.Machine
end

