-- ==== Sys2Proof/Machine/Ops.lean ====
section
/-! DEFINITION. The shared operations over the state: registers, program counter, call stack, timers, raising a
fault, completing a step, and taking an answer from the host. There is no return from a fault
(60_exceptions.md R151), so there is no operation for one. -/

namespace Sys2Proof.Machine

/-! ## General registers (10_state.md R11) -/

/-- `V[x]`. -/
def State.reg (s : State) (x : Reg) : Byte := s.v[x.toNat]'(by have := x.isLt; omega)

/-- `V[x] <- b`. -/
def State.setReg (s : State) (x : Reg) (b : Byte) : State :=
  { s with v := s.v.set x.toNat b (by have := x.isLt; omega) }

/-- `V[k], V[k+1], ... <- bs`. -/
def State.setRegs (s : State) (k : Nat) : List Byte → State
  | [] => s
  | b :: bs => State.setRegs { s with v := s.v.setIfInBounds k b } (k + 1) bs

/-- `V[0]` to `V[x]`, in order. -/
def State.regsUpTo (s : State) (x : Reg) : List Byte := s.v.toList.take (x.toNat + 1)

/-! ## Program counter -/

/-- `PC <- PC + 2`: the advance after fetch (40_cycle_and_system.md R72) and the skip
(41_control_flow.md R80). -/
def State.advance (s : State) : State := { s with pc := s.pc + 2 }

/-- `skip` when `b`. -/
def State.skipIf (s : State) (b : Bool) : State := if b then s.advance else s

/-- `PC <- target`. -/
def State.jump (s : State) (target : Word) : State := { s with pc := target }

/-! ## Call stack (10_state.md R15) -/

/-- Pushes a frame; `none` when 16 are pushed. -/
def State.push (s : State) (w : Word) : Option State :=
  if h : s.sp.val < 16 then
    some { s with stack := s.stack.set s.sp.val w h, sp := ⟨s.sp.val + 1, by omega⟩ }
  else none

/-- Pops a frame, leaving the entry in place; `none` when none is pushed. -/
def State.pop (s : State) : Option (Word × State) :=
  if h : s.sp.val = 0 then none
  else
    some (s.stack[s.sp.val - 1]'(by have := s.sp.isLt; omega),
      { s with sp := ⟨s.sp.val - 1, by have := s.sp.isLt; omega⟩ })

/-! ## Timers -/

/-- A timer after one tick: one less, floor at 0 (40_cycle_and_system.md R74). -/
def tickDown (d : Byte) : Byte := if d = 0 then 0 else d - 1

/-- The tick of both timers (R74). -/
def State.tick (s : State) : State := { s with dt := tickDown s.dt, st := tickDown s.st }

/-! ## How a step ends (R75) -/

/-- The step completes: the timers tick, which is its last part. -/
def complete (s : State) : Result := .next s.tick

/-- TAKING A FAULT (60_exceptions.md R150): the status becomes `FAULTED(c)` and nothing else changes;
the timers do not tick and no display event is emitted. `s` holds the `PC` the fault leaves: as it
was for a fetch fault, already advanced for every other. -/
def raise (c : Cause) (s : State) : Result := .next { s with status := .faulted c }

/-! ## The host (10_state.md R21) -/

/-- The host has answered: what it would answer next is a free value (D18, D25); log entry 3. -/
def State.renewHost (s : State) : State :=
  { s with host := Config.hostAnswers s.draws, draws := s.draws + 1 }

/-- `host.is_key_down(k)` (45_keypad.md R130). -/
def State.isKeyDown (s : State) (k : Key) : Bool :=
  s.host.keysDown[k.toNat]'(by have := k.isLt; omega)

/-! ## Framebuffer (10_state.md R18) -/

/-- `fb[r][c]`. -/
def Framebuffer.pixel (fb : Framebuffer) (r : Fin 32) (c : Fin 64) : Bool := (fb[r])[c]

/-- `fb[r][c] <- b`. -/
def Framebuffer.setPixel (fb : Framebuffer) (r : Fin 32) (c : Fin 64) (b : Bool) : Framebuffer :=
  fb.set r.val ((fb[r]).set c.val b)

/-- `emit display(fb)` (44_display.md R124). -/
def State.emitDisplay (s : State) : State := { s with display := s.fb :: s.display }

end Sys2Proof.Machine
end

