-- ==== Sys2Proof/Machine/Flags.lean ====
section
/-! DEFINITION. The flag computations: the values `VF` receives (10_state.md R12). -/

namespace Sys2Proof.Machine

/-- A flag as a byte: 1 or 0. -/
def flagByte (b : Bool) : Byte := if b then 1 else 0

/-- Whether the sum of two bytes, in natural numbers, is above 255 (42_arith_logic.md R98). -/
def carryFlag (a b : Byte) : Bool := decide (a.toNat + b.toNat > 255)

/-- Whether `a` is strictly greater than `b`, unsigned (R99, R101). -/
def greaterFlag (a b : Byte) : Bool := decide (a.toNat > b.toNat)

/-- The bit a right shift shifts out (R100). -/
def lowBit (a : Byte) : Bool := a.getLsbD 0

/-- The bit a left shift shifts out (R102). -/
def highBit (a : Byte) : Bool := a.getLsbD 7

/-- `VF <- b`. -/
def State.setFlag (s : State) (b : Bool) : State := s.setReg vf (flagByte b)

end Sys2Proof.Machine
end

