-- ==== Sys2Proof/Machine/Arith.lean ====
section
/-! DEFINITION. Arithmetic, logic and the random byte (42_arith_logic.md). The two effects of a flag-writing
instruction run in the order the spec lists them, each reading the registers as the one before left
them (R91, D7). -/

namespace Sys2Proof.Machine

/-- `LD Vx,kk` (R92). -/
def execLdVxKk (x : Reg) (kk : Byte) (s : State) : Result := complete (s.advance.setReg x kk)

/-- `ADD Vx,kk` (R93): modulo 256, no flag. -/
def execAddVxKk (x : Reg) (kk : Byte) (s : State) : Result :=
  complete (s.advance.setReg x (s.reg x + kk))

/-- `LD Vx,Vy` (R94). -/
def execLdVxVy (x y : Reg) (s : State) : Result := complete (s.advance.setReg x (s.reg y))

/-- `OR Vx,Vy` (R95). -/
def execOrVxVy (x y : Reg) (s : State) : Result :=
  complete (s.advance.setReg x (s.reg x ||| s.reg y))

/-- `AND Vx,Vy` (R96). -/
def execAndVxVy (x y : Reg) (s : State) : Result :=
  complete (s.advance.setReg x (s.reg x &&& s.reg y))

/-- `XOR Vx,Vy` (R97). -/
def execXorVxVy (x y : Reg) (s : State) : Result :=
  complete (s.advance.setReg x (s.reg x ^^^ s.reg y))

/-- `ADD Vx,Vy` (R98): result, then flag; both from the operands as they were. -/
def execAddVxVy (x y : Reg) (s : State) : Result :=
  complete ((s.advance.setReg x (s.reg x + s.reg y)).setFlag (carryFlag (s.reg x) (s.reg y)))

/-- `SUB Vx,Vy` (R99): flag, then the difference of the registers after the flag write. -/
def execSubVxVy (x y : Reg) (s : State) : Result :=
  let t := s.advance.setFlag (greaterFlag (s.reg x) (s.reg y))
  complete (t.setReg x (t.reg x - t.reg y))

/-- `SHR Vx` (R100): flag, then the register shifted as the flag write left it. -/
def execShrVx (x : Reg) (s : State) : Result :=
  let t := s.advance.setFlag (lowBit (s.reg x))
  complete (t.setReg x (t.reg x >>> 1))

/-- `SUBN Vx,Vy` (R101): flag, then the difference of the registers after the flag write. -/
def execSubnVxVy (x y : Reg) (s : State) : Result :=
  let t := s.advance.setFlag (greaterFlag (s.reg y) (s.reg x))
  complete (t.setReg x (t.reg y - t.reg x))

/-- `SHL Vx` (R102): flag, then the register shifted as the flag write left it. -/
def execShlVx (x : Reg) (s : State) : Result :=
  let t := s.advance.setFlag (highBit (s.reg x))
  complete (t.setReg x (t.reg x <<< 1))

/-- `RND Vx,kk` (R103): the host's byte is a free value, a fresh one at every execution (D18). -/
def execRndVxKk (x : Reg) (kk : Byte) (s : State) : Result :=
  complete (s.advance.setReg x (s.host.random &&& kk)).renewHost

end Sys2Proof.Machine
end

