-- ==== Sys2Proof/Machine/Operands.lean ====
section
/-! DEFINITION. The operand forms and the values the rules compute from operands. -/

namespace Sys2Proof.Machine

/-- `zext_16(nnn)` (30_encoding.md R53). -/
def addrWord (nnn : Addr) : Word := nnn.setWidth 16

/-- `zext_16(V[x])` (41_control_flow.md R88, 43_memory_timer_bcd.md R106). -/
def byteWord (b : Byte) : Word := b.setWidth 16

/-- The base address of the operand `[I]`, a natural number (20_memory.md R33). -/
def State.base (s : State) : Nat := s.i.toNat

/-- The address of the glyph of the digit `b`: `b × 5`, with no masking (43_memory_timer_bcd.md R107). -/
def glyphAddress (b : Byte) : Word := byteWord b * 5

/-- The hundreds, tens and ones of a byte (R108). -/
def bcdDigits (b : Byte) : List Byte := [b / 100, b / 10 % 10, b % 10]

/-- The key a byte names, `none` above 15 (45_keypad.md R134). -/
def keyOfByte (b : Byte) : Option Key := if b.toNat > 15 then none else some (b.setWidth 4)

/-- `zext_8(k)` (R133). -/
def keyByte (k : Key) : Byte := k.setWidth 8

/-- The row a sprite's row number lands on: wrapped modulo 32 (44_display.md R120). -/
def wrapRow (k : Nat) : Fin 32 := Fin.ofNat 32 k

/-- The column a sprite's column number lands on: wrapped modulo 64 (R120). -/
def wrapCol (k : Nat) : Fin 64 := Fin.ofNat 64 k

end Sys2Proof.Machine
end

