-- ==== Sys2Proof/Machine/Control.lean ====
section
/-! DEFINITION. Control flow and the call stack (41_control_flow.md). -/

namespace Sys2Proof.Machine

/-- `RET` (R81). -/
def execRet (s : State) : Result :=
  match s.advance.pop with
  | none => raise .stackUnderflow s.advance
  | some (target, t) => complete (t.jump target)

/-- `JP addr` (R82). -/
def execJpAddr (nnn : Addr) (s : State) : Result := complete (s.advance.jump (addrWord nnn))

/-- `CALL addr` (R83): the pushed `PC` is the advanced one. -/
def execCallAddr (nnn : Addr) (s : State) : Result :=
  match s.advance.push s.advance.pc with
  | none => raise .stackOverflow s.advance
  | some t => complete (t.jump (addrWord nnn))

/-- `SE Vx,kk` (R84). -/
def execSeVxKk (x : Reg) (kk : Byte) (s : State) : Result :=
  complete (s.advance.skipIf (s.reg x == kk))

/-- `SNE Vx,kk` (R85). -/
def execSneVxKk (x : Reg) (kk : Byte) (s : State) : Result :=
  complete (s.advance.skipIf (s.reg x != kk))

/-- `SE Vx,Vy` (R86). -/
def execSeVxVy (x y : Reg) (s : State) : Result :=
  complete (s.advance.skipIf (s.reg x == s.reg y))

/-- `SNE Vx,Vy` (R87). -/
def execSneVxVy (x y : Reg) (s : State) : Result :=
  complete (s.advance.skipIf (s.reg x != s.reg y))

/-- `JP V0,addr` (R88): a 16-bit sum, not reduced to 12 bits. -/
def execJpV0Addr (nnn : Addr) (s : State) : Result :=
  complete (s.advance.jump (addrWord nnn + byteWord (s.reg 0)))

end Sys2Proof.Machine
end

