-- ==== Sys2Proof/Machine/Display.lean ====
section
/-! DEFINITION. The display instructions and the sprite engine (44_display.md). -/

namespace Sys2Proof.Machine

/-- `CLS` (R121): no display event (D16). -/
def execCls (s : State) : Result := complete { s.advance with fb := blankScreen }

/-- One pixel of the sprite: column `j` of the byte `b` in sprite row `r`, XORed at its wrapped place.
The pair holds the framebuffer and whether a lit pixel has been turned off so far (R122). -/
def drawPixel (ox oy r : Nat) (b : Byte) (p : Framebuffer × Bool) (j : Nat) : Framebuffer × Bool :=
  let bit := b.getLsbD (7 - j)
  let old := Framebuffer.pixel p.1 (wrapRow (oy + r)) (wrapCol (ox + j))
  (Framebuffer.setPixel p.1 (wrapRow (oy + r)) (wrapCol (ox + j)) (old ^^ bit), p.2 || (bit && old))

/-- The eight pixels of a sprite row, leftmost first. -/
def drawRow (ox oy r : Nat) (b : Byte) (p : Framebuffer × Bool) : Framebuffer × Bool :=
  (List.range 8).foldl (drawPixel ox oy r b) p

/-- The rows of a sprite from row `r` on. -/
def drawRows (ox oy : Nat) : Nat → List Byte → Framebuffer × Bool → Framebuffer × Bool
  | _, [], p => p
  | r, b :: bs, p => drawRows ox oy (r + 1) bs (drawRow ox oy r b p)

/-- A sprite at an origin: the new framebuffer and the collision flag. -/
def drawSprite (ox oy : Nat) (sprite : List Byte) (fb : Framebuffer) : Framebuffer × Bool :=
  drawRows ox oy 0 sprite (fb, false)

/-- `DRW Vx,Vy,n` (R122): the origin is read before `VF` is reset (D8); `n = 0` reads nothing (D9); the
display event comes last (R124). -/
def execDrwVxVyN (x y : Reg) (n : Nibble) (s : State) : Result :=
  match s.memRead s.base n.toNat with
  | none => raise (.oobMemRead s.i) s.advance
  | some sprite =>
    let p := drawSprite ((s.reg x).toNat % 64) ((s.reg y).toNat % 32) sprite s.fb
    complete (State.emitDisplay { s.advance.setFlag p.2 with fb := p.1 })

end Sys2Proof.Machine
end

