-- ==== Sys2Proof/Machine/Keypad.lean ====
section
/-! DEFINITION. The keypad instructions (45_keypad.md). The host's answers are free values (R130, D25). -/

namespace Sys2Proof.Machine

/-- `SKP Vx` (R131): `KEY_RANGE` above 15 (R134, D13), before the host is asked. -/
def execSkpVx (x : Reg) (s : State) : Result :=
  match keyOfByte (s.reg x) with
  | none => raise (.keyRange (s.reg x)) s.advance
  | some k => complete (s.advance.skipIf (s.isKeyDown k)).renewHost

/-- `SKNP Vx` (R132). -/
def execSknpVx (x : Reg) (s : State) : Result :=
  match keyOfByte (s.reg x) with
  | none => raise (.keyRange (s.reg x)) s.advance
  | some k => complete (s.advance.skipIf (!s.isKeyDown k)).renewHost

/-- `LD Vx,K` (R133): while the host reports no key press the step is held, which changes nothing of the
core's state; what the host answers the next time is free (D14, log entry 6). -/
def execLdVxK (x : Reg) (s : State) : Result :=
  match s.host.pressed with
  | none => .next s.renewHost
  | some k => complete (s.advance.setReg x (keyByte k)).renewHost

end Sys2Proof.Machine
end

