-- ==== Sys2Proof/Machine/MemTimer.lean ====
section
/-! DEFINITION. The address register, memory, BCD and timers (43_memory_timer_bcd.md). -/

namespace Sys2Proof.Machine

/-- `LD I,addr` (R105). -/
def execLdIAddr (nnn : Addr) (s : State) : Result := complete { s.advance with i := addrWord nnn }

/-- `ADD I,Vx` (R106): modulo 65536 (D10), no flag. -/
def execAddIVx (x : Reg) (s : State) : Result :=
  complete { s.advance with i := s.i + byteWord (s.reg x) }

/-- `LD F,Vx` (R107): unmasked (D11). -/
def execLdFVx (x : Reg) (s : State) : Result :=
  complete { s.advance with i := glyphAddress (s.reg x) }

/-- `LD B,Vx` (R108). -/
def execLdBVx (x : Reg) (s : State) : Result :=
  match s.advance.memWrite s.base (bcdDigits (s.reg x)) with
  | none => raise (.oobMemWrite s.i) s.advance
  | some t => complete t

/-- `LD [I],Vx` (R109). -/
def execLdMemVx (x : Reg) (s : State) : Result :=
  match s.advance.memWrite s.base (s.regsUpTo x) with
  | none => raise (.oobMemWrite s.i) s.advance
  | some t => complete t

/-- `LD Vx,[I]` (R110). -/
def execLdVxMem (x : Reg) (s : State) : Result :=
  match s.memRead s.base (x.toNat + 1) with
  | none => raise (.oobMemRead s.i) s.advance
  | some bs => complete (s.advance.setRegs 0 bs)

/-- `LD Vx,DT` (R111): `DT` before this step's tick. -/
def execLdVxDt (x : Reg) (s : State) : Result := complete (s.advance.setReg x s.dt)

/-- `LD DT,Vx` (R112): the new value is ticked in the same step. -/
def execLdDtVx (x : Reg) (s : State) : Result := complete { s.advance with dt := s.reg x }

/-- `LD ST,Vx` (R113): the new value is ticked in the same step. -/
def execLdStVx (x : Reg) (s : State) : Result := complete { s.advance with st := s.reg x }

end Sys2Proof.Machine
end

