-- ==== Sys2Proof/Machine/System.lean ====
section
/-! DEFINITION. `HALT` (40_cycle_and_system.md). Every meaning takes the state before the advance of R72 and
answers how the whole step ends (R75). -/

namespace Sys2Proof.Machine

/-- `HALT` (R76): `status <- HALTED`, after the advance; the timers tick (D6). -/
def execHalt (s : State) : Result := complete { s.advance with status := .halted }

end Sys2Proof.Machine
end

