-- ==== Sys2Proof/Machine/Fetch.lean ====
section
/-! DEFINITION. Fetching an instruction, the two faults of a step outside its instruction, and placing an
instruction where the next step fetches. -/

namespace Sys2Proof.Machine

/-- The big-endian word of the two bytes at `PC`; `none` when `PC + 1 > 4095`
(40_cycle_and_system.md R71, 20_memory.md R34). -/
def State.fetch (s : State) : Option Word :=
  match s.memRead s.pc.toNat 2 with
  | some [hi, lo] => some (wordOfBytes hi lo)
  | _ => none

/-- `OOB_FETCH(PC)`, raised before `PC` is advanced (R71, 60_exceptions.md R150). -/
def fetchFault (s : State) : Result := raise (.oobFetch s.pc) s

/-- `UNRECOGNIZED_OPCODE(w)`, raised with `PC` already advanced (40_cycle_and_system.md R73). -/
def opcodeFault (w : Word) (s : State) : Result := raise (.unrecognizedOpcode w) s.advance

/-- `s` about to fetch: the status is `RUNNING`, and a `PC` with no two bytes of memory under it is the
entry point instead. -/
def State.readyToFetch (s : State) : State :=
  { s with
    status := .running
    pc := if s.pc.toNat + 2 ≤ Config.memSize then s.pc else 0x200 }

/-- `s` with bytes stored where the next step fetches. -/
def State.placeAtPc (s : State) (bs : List Byte) : State :=
  s.readyToFetch.writeBytes s.readyToFetch.pc.toNat bs

end Sys2Proof.Machine
end

