-- ==== Sys2Proof/Machine/Step.lean ====
section
/-! DEFINITION. The step (40_cycle_and_system.md R70) and the placing of an instruction for it to fetch. -/

namespace Sys2Proof.Machine

/-- One step. It is defined only when the status is `RUNNING` (R70, 10_state.md R20); `exec` carries out
the advance, the instruction and the tick. -/
def step (s : State) : Host.Outcome State Fault Refusal :=
  match s.status with
  | .halted => .fault .halted
  | .faulted c => .fault (.faulted c)
  | .running =>
    match s.fetch with
    | none => fetchFault s
    | some w =>
      match decodeWord w with
      | none => opcodeFault w s
      | some i => exec i s

/-- `s` with the instruction whose table bits are `w` stored where the next step fetches, the core
`RUNNING` and `PC` inside memory, so that this step runs it; log entry 20. -/
def State.withFetchWord (s : State) (nbits w : Nat) : State := s.placeAtPc (tableBytes nbits w)

end Sys2Proof.Machine
end

