-- ==== Sys2Proof/WellFormed.lean ====
section
/-! DEFINITION. What is well formed. An instruction's operands have exactly the widths of their fields, so every
term of `Instr` is an instruction the encoding admits and there is nothing left to check of one
(30_encoding.md R51, R52). The check that remains is of a program image (70_reset_and_hazards.md R162). -/

namespace Sys2Proof

/-- A program image is within the loader's contract when it has at most 3584 bytes
(70_reset_and_hazards.md R162). -/
def imageWellFormed (image : List Byte) : Bool := decide (image.length ≤ Config.maxImage)

end Sys2Proof
end

