-- ==== Sys2Proof/Machine/Boot.lean ====
section
/-! DEFINITION. The loader's contract and the run loop. -/

namespace Sys2Proof.Machine

/-- Reset with the font `f`, then the image copied to 0x200 (70_reset_and_hazards.md R160, R162); an
image of more than 3584 bytes is refused (D21). -/
def boot (f : Font) (image : List Byte) : Result :=
  if imageWellFormed image then .next ((State.resetWith f).writeBytes Config.progBase image)
  else .refused .imageTooLong

/-- At most `k` steps of the run loop: it ends when the status leaves `RUNNING`
(40_cycle_and_system.md R77). -/
def run : Nat → State → State
  | 0, s => s
  | k + 1, s =>
    match step s with
    | .next t => run k t
    | .fault _ => s
    | .refused _ => s

end Sys2Proof.Machine
end

