-- ==== Sys2Proof/Safety.lean ====
section
/-! DEFINITION. The terms in which claims about the core are stated: what a step leaves unchanged, the invariants,
safe runs, and the spec's own lists of which instruction does what, written from the rules and not from
the meanings. -/

namespace Sys2Proof.Machine

/-! ## What is unchanged from `s` to `t` -/

/-- Every general register. -/
def RegsKept (s t : State) : Prop := ∀ r : Reg, t.reg r = s.reg r

/-- Every general register but `V[x]`. -/
def RegsKeptBut (x : Reg) (s t : State) : Prop := ∀ r : Reg, r ≠ x → t.reg r = s.reg r

/-- The call stack and its pointer. -/
def StackKept (s t : State) : Prop := t.sp = s.sp ∧ t.stack = s.stack

/-- The framebuffer, and no display event. -/
def ScreenKept (s t : State) : Prop := t.fb = s.fb ∧ t.display = s.display

/-- Every byte of memory, and the font parameter. -/
def MemKept (s t : State) : Prop := (∀ a : Nat, t.readByte a = s.readByte a) ∧ t.font = s.font

/-- Every byte of memory outside the `n` bytes from `a`, and the font parameter. -/
def MemKeptOutside (a n : Nat) (s t : State) : Prop :=
  (∀ b : Nat, b < a ∨ a + n ≤ b → t.readByte b = s.readByte b) ∧ t.font = s.font

/-- Both timers. -/
def TimersKept (s t : State) : Prop := t.dt = s.dt ∧ t.st = s.st

/-- The host has not been asked. -/
def HostKept (s t : State) : Prop := t.host = s.host ∧ t.draws = s.draws

/-- The host has been asked once: what it answers next is the next value of the sequence, a fresh free one
(42_arith_logic.md R103, 45_keypad.md R130); the sequence is the model's, log entry 3. -/
def HostAsked (s t : State) : Prop := t.host = Config.hostAnswers s.draws ∧ t.draws = s.draws + 1

/-- Both timers have ticked once: one less, floor at 0 (40_cycle_and_system.md R74). -/
def Ticked (s t : State) : Prop := t.dt.toNat = s.dt.toNat - 1 ∧ t.st.toNat = s.st.toNat - 1

/-- Everything but `V`, `PC`, the timers and the host's answers. -/
def QuietApartFromHost (s t : State) : Prop :=
  t.i = s.i ∧ StackKept s t ∧ ScreenKept s t ∧ MemKept s t ∧ t.status = s.status

/-- Everything but `V`, `PC` and the timers. -/
def Quiet (s t : State) : Prop := QuietApartFromHost s t ∧ HostKept s t

/-- The ten elements of the architectural state (10_state.md R10) are all the same. -/
def SameCore (s t : State) : Prop :=
  RegsKept s t ∧ QuietApartFromHost s t ∧ t.pc = s.pc ∧ TimersKept s t

/-- `t` is what the fault `c` leaves of `s` (60_exceptions.md R150): `status`, and `PC` as given; nothing
else is changed. -/
def FaultLeaves (c : Cause) (pc : Word) (s t : State) : Prop := t = { s with status := .faulted c, pc := pc }

/-! ## How an instruction completes -/

/-- The instruction completes, sets `V[x]` to `b`, advances `PC` by 2, ticks the timers, and leaves
everything else. -/
def SetsOneReg (i : Instr) (s : State) (x : Reg) (b : Byte) : Prop :=
  ∃ t, exec i s = .next t ∧ t.reg x = b ∧ RegsKeptBut x s t ∧ t.pc = s.pc + 2 ∧ Ticked s t ∧ Quiet s t

/-- The instruction completes, sets `PC` to `target`, ticks the timers, and leaves everything else. -/
def SetsPc (i : Instr) (s : State) (target : Word) : Prop :=
  ∃ t, exec i s = .next t ∧ t.pc = target ∧ RegsKept s t ∧ Ticked s t ∧ Quiet s t

/-- The instruction completes, sets `I` to `w`, advances `PC` by 2, ticks the timers, and leaves
everything else. -/
def SetsI (i : Instr) (s : State) (w : Word) : Prop :=
  ∃ t, exec i s = .next t ∧ t.i = w ∧ t.pc = s.pc + 2 ∧ Ticked s t ∧ RegsKept s t ∧ StackKept s t ∧
    ScreenKept s t ∧ MemKept s t ∧ HostKept s t ∧ t.status = s.status

/-! ## Invariants -/

/-- Memory is in its canonical form. -/
def MemCanonical (s : State) : Prop := Memory.wf s.font s.mem = true

/-- `PC` is at most 0x10FE and every saved `PC` at most 4096 (10_state.md R14, 41_control_flow.md R81). -/
def PcBounded (s : State) : Prop :=
  s.pc.toNat ≤ 0x10FE ∧ ∀ k : Nat, (h : k < 16) → (s.stack[k]'h).toNat ≤ 4096

/-! ## Runs -/

/-- The good end of a run (10_state.md R20). -/
def GoodEnd (s : State) : Prop := s.status = .halted

/-- Not in a fault: "never `FAULTED`" is a program's safety (R20). -/
def Safe (s : State) : Prop := ∀ c, s.status ≠ .faulted c

/-! ## The spec's lists -/

/-- The numeric code of a cause (60_exceptions.md R141). -/
def causeCode : Cause → Nat
  | .unrecognizedOpcode _ => 1
  | .oobFetch _ => 2
  | .oobMemRead _ => 3
  | .oobMemWrite _ => 4
  | .stackOverflow => 5
  | .stackUnderflow => 6
  | .keyRange _ => 7

/-- The fault an instruction raises in a state, by the table of 60_exceptions.md R141 and rules R144 to
R148; the 27 instructions not named raise none. -/
def faultOf (i : Instr) (s : State) : Option Cause :=
  match i with
  | .ret => if s.sp.val = 0 then some .stackUnderflow else none
  | .callAddr _ => if s.sp.val = 16 then some .stackOverflow else none
  | .drwVxVyN _ _ n =>
    if n.toNat > 0 ∧ s.i.toNat + n.toNat - 1 > 4095 then some (.oobMemRead s.i) else none
  | .ldVxMem x => if s.i.toNat + x.toNat > 4095 then some (.oobMemRead s.i) else none
  | .ldBVx _ => if s.i.toNat + 2 > 4095 then some (.oobMemWrite s.i) else none
  | .ldMemVx x => if s.i.toNat + x.toNat > 4095 then some (.oobMemWrite s.i) else none
  | .skpVx x => if (s.reg x).toNat > 15 then some (.keyRange (s.reg x)) else none
  | .sknpVx x => if (s.reg x).toNat > 15 then some (.keyRange (s.reg x)) else none
  | _ => none

/-- Whether the instruction is one of the six that write `VF` as a side effect (10_state.md R12). -/
def writesFlag : Instr → Bool
  | .addVxVy _ _ | .subVxVy _ _ | .shrVx _ _ | .subnVxVy _ _ | .shlVx _ _ | .drwVxVyN _ _ _ => true
  | _ => false

/-- Whether the instruction names `V[r]` as a destination. -/
def writesReg (r : Reg) : Instr → Bool
  | .ldVxKk x _ | .addVxKk x _ | .ldVxVy x _ | .orVxVy x _ | .andVxVy x _ | .xorVxVy x _
  | .addVxVy x _ | .subVxVy x _ | .shrVx x _ | .subnVxVy x _ | .shlVx x _ | .rndVxKk x _
  | .ldVxDt x | .ldVxK x => r == x
  | .ldVxMem x => decide (r.toNat ≤ x.toNat)
  | _ => false

/-- Whether the instruction writes `I` (10_state.md R13). -/
def writesI : Instr → Bool
  | .ldIAddr _ | .addIVx _ | .ldFVx _ => true
  | _ => false

/-- Whether the instruction stores to memory (20_memory.md R30). -/
def storesToMemory : Instr → Bool
  | .ldBVx _ | .ldMemVx _ => true
  | _ => false

/-- Whether the instruction pushes or pops the call stack (10_state.md R15). -/
def usesStack : Instr → Bool
  | .callAddr _ | .ret => true
  | _ => false

/-- Whether the instruction writes the framebuffer (10_state.md R18). -/
def writesScreen : Instr → Bool
  | .cls | .drwVxVyN _ _ _ => true
  | _ => false

/-- Whether the instruction writes a timer (10_state.md R16, R17). -/
def writesTimer : Instr → Bool
  | .ldDtVx _ | .ldStVx _ => true
  | _ => false

/-- Whether the instruction asks the host (10_state.md R21). -/
def asksHost : Instr → Bool
  | .rndVxKk _ _ | .skpVx _ | .sknpVx _ | .ldVxK _ => true
  | _ => false

/-- The sprite's bit that lands on row `r`, column `c` (44_display.md R120, R122): the pixel lies `dr`
rows below and `dc` columns right of the origin, counted around the edges; it takes bit `7 - dc` of the
byte at `I + dr` when `dr < n` and `dc < 8`, and otherwise no bit of the sprite. -/
def spriteBit (s : State) (x y : Reg) (n : Nibble) (r : Fin 32) (c : Fin 64) : Bool :=
  let dr := (r.val + 32 - (s.reg y).toNat % 32) % 32
  let dc := (c.val + 64 - (s.reg x).toNat % 64) % 64
  decide (dr < n.toNat) && decide (dc < 8) && (s.readByte (s.i.toNat + dr)).getLsbD (7 - dc)

/-- Whether the word is illegal, by the table of 30_encoding.md R56. -/
def illegalWord (w : Word) : Bool :=
  let op := w.toNat / 4096
  let kk := w.toNat % 256
  let n := w.toNat % 16
  (op == 0 && !(w.toNat == 0 || w.toNat == 0x00E0 || w.toNat == 0x00EE)) ||
  (op == 5 && n != 0) ||
  (op == 8 && ((decide (8 ≤ n) && decide (n ≤ 13)) || n == 15)) ||
  (op == 9 && n != 0) ||
  (op == 0xE && !(kk == 0x9E || kk == 0xA1)) ||
  (op == 0xF && !(kk == 0x07 || kk == 0x0A || kk == 0x15 || kk == 0x18 || kk == 0x1E || kk == 0x29 ||
    kk == 0x33 || kk == 0x55 || kk == 0x65))

end Sys2Proof.Machine
end

