-- ==== Sys2Proof/Certificates/Slice0/Obligations.lean ====
section
/-! DEFINITION. The statements for the provers. Each docstring names the rules of spec/ it formalises; a clause
that rests on a decision of the spec (92_eei_decisions.md) or of the model names that decision or log
entry. -/

open Sys2Proof Sys2Proof.Machine

/-! ## Reset and boot -/

/-- 10_state.md R23: what reset leaves, for every font. That the status is `RUNNING` is decision D2; the
default font of `State.reset` is log entry 4 and nothing here rests on it. -/
def Obligations.ResetLeavesSpecValues : Prop :=
  (∀ f : Font,
    (∀ r : Reg, (State.resetWith f).reg r = 0) ∧
    (State.resetWith f).i = 0 ∧
    (State.resetWith f).pc = 0x200 ∧
    (∀ k : Nat, (h : k < 16) → (State.resetWith f).stack[k]'h = 0) ∧
    (State.resetWith f).sp.val = 0 ∧
    (State.resetWith f).dt = 0 ∧
    (State.resetWith f).st = 0 ∧
    (∀ r c, Framebuffer.pixel (State.resetWith f).fb r c = false) ∧
    (∀ a : Nat, (h : a < 80) → (State.resetWith f).readByte a = f[a]'h) ∧
    (∀ a : Nat, 80 ≤ a → (State.resetWith f).readByte a = 0) ∧
    (State.resetWith f).status = .running) ∧
  ∃ f : Font, State.reset = State.resetWith f

/-- The invariants hold at reset, for every font. -/
def Obligations.InvariantsHoldAtReset : Prop :=
  ∀ f : Font, MemCanonical (State.resetWith f) ∧ PcBounded (State.resetWith f)

/-- 70_reset_and_hazards.md R162: byte `k` of the image goes to 0x200 + k, everything else is as reset
leaves it, and (D21) an image of more than 3584 bytes is refused. -/
def Obligations.BootCopiesImage : Prop :=
  ∀ (f : Font) (image : List Byte),
    (image.length ≤ 3584 →
      ∃ t, boot f image = .next t ∧
        (∀ k : Nat, (h : k < image.length) → t.readByte (0x200 + k) = image[k]'h) ∧
        MemKeptOutside 0x200 image.length (State.resetWith f) t ∧ MemCanonical t ∧
        RegsKept (State.resetWith f) t ∧ t.i = 0 ∧ t.pc = 0x200 ∧ StackKept (State.resetWith f) t ∧
        TimersKept (State.resetWith f) t ∧ ScreenKept (State.resetWith f) t ∧
        HostKept (State.resetWith f) t ∧ t.status = .running) ∧
    (3584 < image.length → boot f image = .refused .imageTooLong)

/-! ## Decoding and encoding -/

/-- 30_encoding.md R51 to R55: decoding the encoding of an instruction gives it back, every operand at every
value its field admits. -/
def Obligations.DecodeOfEncode : Prop := ∀ i : Instr, decodeWord (encode i) = some i

/-- 30_encoding.md R58: an instruction's decoding loses no bit of the word, the `y` that `SHR` and `SHL`
ignore included. -/
def Obligations.EncodeOfDecode : Prop := ∀ (w : Word) (i : Instr), decodeWord w = some i → encode i = w

/-- 30_encoding.md R54: no word satisfies two rows of the opcode map, so the order of tests does not
matter. -/
def Obligations.OpcodeMapRowsDisjoint : Prop :=
  ∀ (w : Word) (j k : Nat) (hj : j < opcodeMap.length) (hk : k < opcodeMap.length),
    rowMatches w (opcodeMap[j]'hj) = true → rowMatches w (opcodeMap[k]'hk) = true → j = k

/-- 30_encoding.md R56: the illegal words are exactly those of its table (decision D15 for 5xyn and
9xyn). -/
def Obligations.IllegalWordsAreExactlyTheTable : Prop :=
  ∀ w : Word, decodeWord w = none ↔ illegalWord w = true

/-- 95_test_vectors.md 2.1: some words written out from the encodings; that 0x5121 is no instruction is
decision D15 (log entry 16). -/
def Obligations.SampleWordsDecode : Prop :=
  decodeWord 0x6A05 = some (.ldVxKk 0xA 5) ∧ decodeWord 0xD125 = some (.drwVxVyN 1 2 5) ∧
  decodeWord 0x8AB4 = some (.addVxVy 0xA 0xB) ∧ decodeWord 0x8AF6 = some (.shrVx 0xA 0xF) ∧
  decodeWord 0xF165 = some (.ldVxMem 1) ∧ decodeWord 0xE19E = some (.skpVx 1) ∧
  decodeWord 0x00E0 = some .cls ∧ decodeWord 0x0000 = some .halt ∧
  decodeWord 0x0123 = none ∧ decodeWord 0x5121 = none ∧ decodeWord 0x812D = none ∧
  decode [0x6A, 0x05] = .ok (.ldVxKk 0xA 5, [])

/-! ## The step -/

/-- 40_cycle_and_system.md R70, R71, 20_memory.md R34: when the two bytes at `PC`, the first being bits 15
to 8, decode to an instruction, the step of a running core is that instruction; nothing is added around
`exec`, which carries out the advance of `PC` and the tick. -/
def Obligations.StepRunsDecodedInstruction : Prop :=
  ∀ (s : State) (i : Instr), s.status = .running → s.pc.toNat + 1 ≤ 4095 →
    decodeWord (s.readByte s.pc.toNat ++ s.readByte (s.pc.toNat + 1)) = some i →
    step s = exec i s

/-- 60_exceptions.md R142: each illegal word of R56 raises `UNRECOGNIZED_OPCODE(w)`, with `PC` advanced past
the word. -/
def Obligations.IllegalWordFaults : Prop :=
  ∀ s : State, s.status = .running → s.pc.toNat + 1 ≤ 4095 →
    illegalWord (s.readByte s.pc.toNat ++ s.readByte (s.pc.toNat + 1)) = true →
    ∃ t, step s = .next t ∧ t.pc = s.pc + 2 ∧
      t.status = .faulted (.unrecognizedOpcode (s.readByte s.pc.toNat ++ s.readByte (s.pc.toNat + 1)))

/-- 40_cycle_and_system.md R71 with decision D3: a fetch with `PC + 1 > 4095` raises `OOB_FETCH(PC)` and
changes nothing but the status. -/
def Obligations.FetchOutOfBoundsFaults : Prop :=
  ∀ s : State, s.status = .running → 4095 < s.pc.toNat + 1 →
    ∃ t, step s = .next t ∧ FaultLeaves (.oobFetch s.pc) s.pc s t

/-- 60_exceptions.md R150 with decision D5: whatever fault a step raises, it leaves `status`, and `PC` past
the instruction (unchanged for `OOB_FETCH`), and changes nothing else: no register, no timer, no byte, no
pixel, no display event. -/
def Obligations.FaultChangesOnlyStatusAndPc : Prop :=
  ∀ (s t : State) (c : Cause), s.status = .running → step s = .next t → t.status = .faulted c →
    FaultLeaves c (match c with | .oobFetch _ => s.pc | _ => s.pc + 2) s t

/-- 10_state.md R20 with decision D23: no step is defined in `HALTED` or `FAULTED`; the model answers a
fault of its own there (log entry 2). -/
def Obligations.StoppedCoreTakesNoStep : Prop :=
  ∀ s : State, (s.status = .halted → step s = .fault .halted) ∧
    (∀ c, s.status = .faulted c → step s = .fault (.faulted c))

/-- 40_cycle_and_system.md R75: a step of a running core always ends in one of the spec's four ways, which
are all next states (log entries 1 and 6). -/
def Obligations.RunningCoreAlwaysSteps : Prop :=
  ∀ s : State, s.status = .running → ∃ t, step s = .next t

/-- 10_state.md R20, 40_cycle_and_system.md R76: a step leads to `HALTED` exactly when the word it fetches
is 0x0000. -/
def Obligations.OnlyHaltHalts : Prop :=
  ∀ s t : State, s.status = .running → step s = .next t → (t.status = .halted ↔ s.fetch = some 0x0000)

/-- 40_cycle_and_system.md R77 with decision D23: the run loop takes steps one after another while it can, goes
on where it left off, and once the status has left `RUNNING` the state is the end state of the run. -/
def Obligations.RunEndsWhenStatusLeavesRunning : Prop :=
  ∀ (m n : Nat) (s : State), run 0 s = s ∧
    (∀ t, step s = .next t → run (n + 1) s = run n t) ∧
    run (m + n) s = run n (run m s) ∧
    (s.status ≠ .running → run n s = s)

/-- The model's own: an instruction placed for the next step is what it runs (log entry 20). -/
def Obligations.PlacedInstructionRuns : Prop :=
  ∀ (s : State) (w : Nat) (i : Instr), decodeTableWord 16 w = some i →
    step (s.withFetchWord 16 w) = exec i (s.withFetchWord 16 w)

/-! ## Control flow and the call stack -/

/-- 41_control_flow.md R84 to R87: the four skips compare, skip 2 more or not, and change nothing else. -/
def Obligations.SkipsCompareValues : Prop :=
  ∀ (s : State) (x y : Reg) (kk : Byte),
    (decodeWord (0x3#4 ++ x ++ kk) = some (.seVxKk x kk) ∧
      SetsPc (.seVxKk x kk) s (if (s.reg x).toNat = kk.toNat then s.pc + 2 + 2 else s.pc + 2)) ∧
    (decodeWord (0x4#4 ++ x ++ kk) = some (.sneVxKk x kk) ∧
      SetsPc (.sneVxKk x kk) s (if (s.reg x).toNat = kk.toNat then s.pc + 2 else s.pc + 2 + 2)) ∧
    (decodeWord (0x5#4 ++ x ++ y ++ 0x0#4) = some (.seVxVy x y) ∧
      SetsPc (.seVxVy x y) s (if (s.reg x).toNat = (s.reg y).toNat then s.pc + 2 + 2 else s.pc + 2)) ∧
    (decodeWord (0x9#4 ++ x ++ y ++ 0x0#4) = some (.sneVxVy x y) ∧
      SetsPc (.sneVxVy x y) s (if (s.reg x).toNat = (s.reg y).toNat then s.pc + 2 else s.pc + 2 + 2))

/-- 41_control_flow.md R82, R88: `JP addr` goes to `nnn`, `JP V0,addr` to `nnn + V0` in natural numbers, and
neither changes anything else. -/
def Obligations.JumpsGoToTarget : Prop :=
  ∀ (s : State) (nnn : Addr),
    (decodeWord (0x1#4 ++ nnn) = some (.jpAddr nnn) ∧
      ∃ target : Word, target.toNat = nnn.toNat ∧ SetsPc (.jpAddr nnn) s target) ∧
    (decodeWord (0xB#4 ++ nnn) = some (.jpV0Addr nnn) ∧
      ∃ target : Word, target.toNat = nnn.toNat + (s.reg 0).toNat ∧ SetsPc (.jpV0Addr nnn) s target)

/-- 41_control_flow.md R83: `CALL` pushes the address after it, or raises `STACK_OVERFLOW` at 16 frames
before anything is written. -/
def Obligations.CallPushesReturnAddress : Prop :=
  ∀ (s : State) (nnn : Addr), decodeWord (0x2#4 ++ nnn) = some (.callAddr nnn) ∧
    (s.sp.val < 16 →
      ∃ t, exec (.callAddr nnn) s = .next t ∧ t.pc.toNat = nnn.toNat ∧ t.sp.val = s.sp.val + 1 ∧
        (∀ k : Nat, (h : k < 16) → t.stack[k]'h = if k = s.sp.val then s.pc + 2 else s.stack[k]'h) ∧
        RegsKept s t ∧ t.i = s.i ∧ ScreenKept s t ∧ MemKept s t ∧ HostKept s t ∧
        t.status = s.status ∧ Ticked s t) ∧
    (s.sp.val = 16 →
      ∃ t, exec (.callAddr nnn) s = .next t ∧ t.status = .faulted .stackOverflow ∧ StackKept s t)

/-- 41_control_flow.md R81: `RET` pops a frame and leaves the entry in place, or raises `STACK_UNDERFLOW`
with no frame before `SP` changes. -/
def Obligations.ReturnPopsFrame : Prop :=
  ∀ s : State, decodeWord 0x00EE = some .ret ∧
    ((h : 0 < s.sp.val) →
      ∃ t, exec .ret s = .next t ∧
        t.pc = s.stack[s.sp.val - 1]'(by have := s.sp.isLt; omega) ∧ t.sp.val = s.sp.val - 1 ∧
        t.stack = s.stack ∧ RegsKept s t ∧ t.i = s.i ∧ ScreenKept s t ∧ MemKept s t ∧ HostKept s t ∧
        t.status = s.status ∧ Ticked s t) ∧
    (s.sp.val = 0 →
      ∃ t, exec .ret s = .next t ∧ t.status = .faulted .stackUnderflow ∧ StackKept s t)

/-- 41_control_flow.md R83, R81 (95_test_vectors.md E7): after a `CALL`, a `RET` run with the call stack as
the `CALL` left it goes back to the instruction after the `CALL`, whatever else has happened. -/
def Obligations.ReturnUndoesCall : Prop :=
  ∀ (s t u : State) (nnn : Addr), s.sp.val < 16 → exec (.callAddr nnn) s = .next t → StackKept t u →
    ∃ v, exec .ret u = .next v ∧ v.pc = s.pc + 2 ∧ v.sp = s.sp

/-! ## Arithmetic and logic -/

/-- 42_arith_logic.md R92, R94 to R97: the loads and the logic instructions set `V[x]` and leave every other
register, `VF` included. -/
def Obligations.LoadAndLogicSetVx : Prop :=
  ∀ (s : State) (x y : Reg) (kk : Byte),
    (decodeWord (0x6#4 ++ x ++ kk) = some (.ldVxKk x kk) ∧ SetsOneReg (.ldVxKk x kk) s x kk) ∧
    (decodeWord (0x8#4 ++ x ++ y ++ 0x0#4) = some (.ldVxVy x y) ∧ SetsOneReg (.ldVxVy x y) s x (s.reg y)) ∧
    (decodeWord (0x8#4 ++ x ++ y ++ 0x1#4) = some (.orVxVy x y) ∧
      SetsOneReg (.orVxVy x y) s x (s.reg x ||| s.reg y)) ∧
    (decodeWord (0x8#4 ++ x ++ y ++ 0x2#4) = some (.andVxVy x y) ∧
      SetsOneReg (.andVxVy x y) s x (s.reg x &&& s.reg y)) ∧
    (decodeWord (0x8#4 ++ x ++ y ++ 0x3#4) = some (.xorVxVy x y) ∧
      SetsOneReg (.xorVxVy x y) s x (s.reg x ^^^ s.reg y))

/-- 42_arith_logic.md R93: the sum modulo 256, and `VF` only as the destination. -/
def Obligations.AddImmediateWrapsWithoutFlag : Prop :=
  ∀ (s : State) (x : Reg) (kk : Byte), decodeWord (0x7#4 ++ x ++ kk) = some (.addVxKk x kk) ∧
    ∃ b : Byte, b.toNat = ((s.reg x).toNat + kk.toNat) % 256 ∧ SetsOneReg (.addVxKk x kk) s x b

/-- 42_arith_logic.md R98: the sum modulo 256 and the carry, for every `x` and `y`. That `VF` ends as the
carry when `x` is 15 is decision D7. -/
def Obligations.AddRegistersSetsCarry : Prop :=
  ∀ (s : State) (x y : Reg),
    ∃ t, exec (.addVxVy x y) s = .next t ∧
      (x ≠ vf → (t.reg x).toNat = ((s.reg x).toNat + (s.reg y).toNat) % 256) ∧
      (t.reg vf).toNat = (if (s.reg x).toNat + (s.reg y).toNat > 255 then 1 else 0) ∧
      (∀ r : Reg, r ≠ x → r ≠ vf → t.reg r = s.reg r) ∧ t.pc = s.pc + 2 ∧ Ticked s t ∧ Quiet s t

/-- 42_arith_logic.md R99: `VF` is the strict comparison, then `V[x]` the difference of the registers as the
flag write left them: for `x` or `y` = 15 that order is decision D7. `f` is the new flag and `b` the
subtrahend the second effect reads. -/
def Obligations.SubtractSetsStrictFlag : Prop :=
  ∀ (s : State) (x y : Reg) (f b : Nat),
    f = (if (s.reg x).toNat > (s.reg y).toNat then 1 else 0) → b = (if y = vf then f else (s.reg y).toNat) →
    ∃ t, exec (.subVxVy x y) s = .next t ∧
      (x ≠ vf → (t.reg vf).toNat = f ∧ (t.reg x).toNat = ((s.reg x).toNat + 256 - b) % 256) ∧
      (x = vf → (t.reg vf).toNat = (f + 256 - b) % 256) ∧
      (∀ r : Reg, r ≠ x → r ≠ vf → t.reg r = s.reg r) ∧ t.pc = s.pc + 2 ∧ Ticked s t ∧ Quiet s t

/-- 42_arith_logic.md R101: as `SUB` with the operands the other way round; decision D7 for `x` or `y` =
15. -/
def Obligations.ReverseSubtractSetsStrictFlag : Prop :=
  ∀ (s : State) (x y : Reg) (f b : Nat),
    f = (if (s.reg y).toNat > (s.reg x).toNat then 1 else 0) → b = (if y = vf then f else (s.reg y).toNat) →
    ∃ t, exec (.subnVxVy x y) s = .next t ∧
      (x ≠ vf → (t.reg vf).toNat = f ∧ (t.reg x).toNat = (b + 256 - (s.reg x).toNat) % 256) ∧
      (x = vf → (t.reg vf).toNat = (b + 256 - f) % 256) ∧
      (∀ r : Reg, r ≠ x → r ≠ vf → t.reg r = s.reg r) ∧ t.pc = s.pc + 2 ∧ Ticked s t ∧ Quiet s t

/-- 42_arith_logic.md R100, R102, 30_encoding.md R58: the shifts move `V[x]` by one bit in place whatever
`y` is, and `VF` gets the bit shifted out; for `x` = 15 the second effect reads the new flag (D7). -/
def Obligations.ShiftsMoveOneBitIntoFlag : Prop :=
  ∀ (s : State) (x y : Reg),
    (∃ t, exec (.shrVx x y) s = .next t ∧
      (x ≠ vf → (t.reg x).toNat = (s.reg x).toNat / 2 ∧ (t.reg vf).toNat = (s.reg x).toNat % 2) ∧
      (x = vf → (t.reg vf).toNat = 0) ∧
      (∀ r : Reg, r ≠ x → r ≠ vf → t.reg r = s.reg r) ∧ t.pc = s.pc + 2 ∧ Ticked s t ∧ Quiet s t) ∧
    (∃ t, exec (.shlVx x y) s = .next t ∧
      (x ≠ vf → (t.reg x).toNat = (s.reg x).toNat * 2 % 256 ∧ (t.reg vf).toNat = (s.reg x).toNat / 128) ∧
      (x = vf → (t.reg vf).toNat = (s.reg x).toNat / 128 * 2) ∧
      (∀ r : Reg, r ≠ x → r ≠ vf → t.reg r = s.reg r) ∧ t.pc = s.pc + 2 ∧ Ticked s t ∧ Quiet s t)

/-- 42_arith_logic.md R103: `RND` always completes; it gives the host's byte, a free value (D18, log entry 3),
masked by `kk`, so that no bit outside `kk` is set, and the host's next answer is a fresh one. -/
def Obligations.RandomByteIsMasked : Prop :=
  ∀ (s : State) (x : Reg) (kk : Byte),
    ∃ t, exec (.rndVxKk x kk) s = .next t ∧ t.reg x = s.host.random &&& kk ∧ t.reg x &&& ~~~kk = 0 ∧
      RegsKeptBut x s t ∧ t.pc = s.pc + 2 ∧ Ticked s t ∧ QuietApartFromHost s t ∧ HostAsked s t

/-! ## Address register, memory and timers -/

/-- 43_memory_timer_bcd.md R105: `I` gets `nnn`. -/
def Obligations.LoadAddressSetsI : Prop :=
  ∀ (s : State) (nnn : Addr), decodeWord (0xA#4 ++ nnn) = some (.ldIAddr nnn) ∧
    ∃ w : Word, w.toNat = nnn.toNat ∧ SetsI (.ldIAddr nnn) s w

/-- 43_memory_timer_bcd.md R106, R107: `ADD I,Vx` is modulo 65536 (decision D10) and writes no flag;
`LD F,Vx` is five times the whole byte (decision D11). -/
def Obligations.AddressArithmetic : Prop :=
  ∀ (s : State) (x : Reg),
    (∃ w : Word, w.toNat = (s.i.toNat + (s.reg x).toNat) % 65536 ∧ SetsI (.addIVx x) s w) ∧
    (∃ w : Word, w.toNat = (s.reg x).toNat * 5 ∧ SetsI (.ldFVx x) s w)

/-- 43_memory_timer_bcd.md R108: the three digits at `I`, `I + 1`, `I + 2`, or `OOB_MEM_WRITE(I)`; that then
no byte at all is written is decision D5 (log entry 7). -/
def Obligations.BcdStoresThreeDigits : Prop :=
  ∀ (s : State) (x : Reg), decodeWord (0xF#4 ++ x ++ 0x33#8) = some (.ldBVx x) ∧
    (s.i.toNat + 2 ≤ 4095 →
      ∃ t, exec (.ldBVx x) s = .next t ∧
        (t.readByte s.i.toNat).toNat = (s.reg x).toNat / 100 ∧
        (t.readByte (s.i.toNat + 1)).toNat = (s.reg x).toNat / 10 % 10 ∧
        (t.readByte (s.i.toNat + 2)).toNat = (s.reg x).toNat % 10 ∧
        MemKeptOutside s.i.toNat 3 s t ∧ RegsKept s t ∧ t.i = s.i ∧ StackKept s t ∧ ScreenKept s t ∧
        HostKept s t ∧ t.status = s.status ∧ t.pc = s.pc + 2 ∧ Ticked s t) ∧
    (4095 < s.i.toNat + 2 →
      ∃ t, exec (.ldBVx x) s = .next t ∧ t.status = .faulted (.oobMemWrite s.i) ∧ MemKept s t)

/-- 43_memory_timer_bcd.md R109: `V[0]` to `V[x]` at `I` onwards, `I` unchanged, or `OOB_MEM_WRITE(I)`; that
then no byte at all is written is decision D5 (log entry 7). -/
def Obligations.StoreRegistersToMemory : Prop :=
  ∀ (s : State) (x : Reg), decodeWord (0xF#4 ++ x ++ 0x55#8) = some (.ldMemVx x) ∧
    (s.i.toNat + x.toNat ≤ 4095 →
      ∃ t, exec (.ldMemVx x) s = .next t ∧
        (∀ r : Reg, r.toNat ≤ x.toNat → t.readByte (s.i.toNat + r.toNat) = s.reg r) ∧
        MemKeptOutside s.i.toNat (x.toNat + 1) s t ∧ RegsKept s t ∧ t.i = s.i ∧ StackKept s t ∧
        ScreenKept s t ∧ HostKept s t ∧ t.status = s.status ∧ t.pc = s.pc + 2 ∧ Ticked s t) ∧
    (4095 < s.i.toNat + x.toNat →
      ∃ t, exec (.ldMemVx x) s = .next t ∧ t.status = .faulted (.oobMemWrite s.i) ∧ MemKept s t)

/-- 43_memory_timer_bcd.md R110: memory at `I` onwards into `V[0]` to `V[x]`, `I` and memory unchanged, or
`OOB_MEM_READ(I)`, the sum being of natural numbers (D12, log entry 14); that then no register at all is
written is decision D5 (log entry 7). -/
def Obligations.LoadRegistersFromMemory : Prop :=
  ∀ (s : State) (x : Reg), decodeWord (0xF#4 ++ x ++ 0x65#8) = some (.ldVxMem x) ∧
    (s.i.toNat + x.toNat ≤ 4095 →
      ∃ t, exec (.ldVxMem x) s = .next t ∧
        (∀ r : Reg, r.toNat ≤ x.toNat → t.reg r = s.readByte (s.i.toNat + r.toNat)) ∧
        (∀ r : Reg, x.toNat < r.toNat → t.reg r = s.reg r) ∧ t.pc = s.pc + 2 ∧ Ticked s t ∧ Quiet s t) ∧
    (4095 < s.i.toNat + x.toNat →
      ∃ t, exec (.ldVxMem x) s = .next t ∧ t.status = .faulted (.oobMemRead s.i) ∧ RegsKept s t)

/-- 43_memory_timer_bcd.md R111 to R113: `LD Vx,DT` reads the value before the tick; the value written by
`LD DT,Vx` or `LD ST,Vx` is ticked in the same step; nothing else changes. -/
def Obligations.TimerInstructionsAndTheirTick : Prop :=
  ∀ (s : State) (x : Reg),
    (decodeWord (0xF#4 ++ x ++ 0x07#8) = some (.ldVxDt x) ∧ SetsOneReg (.ldVxDt x) s x s.dt) ∧
    (decodeWord (0xF#4 ++ x ++ 0x15#8) = some (.ldDtVx x) ∧
      ∃ t, exec (.ldDtVx x) s = .next t ∧ t.dt.toNat = (s.reg x).toNat - 1 ∧ t.st.toNat = s.st.toNat - 1 ∧
        RegsKept s t ∧ t.pc = s.pc + 2 ∧ Quiet s t) ∧
    (decodeWord (0xF#4 ++ x ++ 0x18#8) = some (.ldStVx x) ∧
      ∃ t, exec (.ldStVx x) s = .next t ∧ t.st.toNat = (s.reg x).toNat - 1 ∧ t.dt.toNat = s.dt.toNat - 1 ∧
        RegsKept s t ∧ t.pc = s.pc + 2 ∧ Quiet s t)

/-- 20_memory.md R32, R34: a checked access of `n` bytes answers exactly when its last byte lies at 4095 or
below, in natural numbers (D12); a byte written is read back and no other byte changes; a fetch is
big-endian. -/
def Obligations.MemoryPrimitives : Prop :=
  ∀ (s : State) (a : Nat),
    (∀ n : Nat, 1 ≤ n → a + n - 1 ≤ 4095 → ∃ bs, s.memRead a n = some bs ∧ bs.length = n ∧
      ∀ k : Nat, (h : k < bs.length) → bs[k]'h = s.readByte (a + k)) ∧
    (∀ n : Nat, 1 ≤ n → 4095 < a + n - 1 → s.memRead a n = none) ∧
    (∀ v : Byte, a ≤ 4095 → ∃ t, s.memWrite a [v] = some t ∧ t.readByte a = v ∧
      ∀ b : Nat, b ≠ a → t.readByte b = s.readByte b) ∧
    (∀ v : Byte, 4095 < a → s.memWrite a [v] = none) ∧
    (s.pc.toNat + 1 ≤ 4095 → s.fetch = some (s.readByte s.pc.toNat ++ s.readByte (s.pc.toNat + 1)))

/-- 20_memory.md R41, R38: bytes stored by `LD [I],Vx` are what the very next step fetches, when `PC` then
lies on them. -/
def Obligations.StoreIsSeenByNextFetch : Prop :=
  ∀ (s t : State) (x k k' : Reg), s.i.toNat + x.toNat ≤ 4095 → exec (.ldMemVx x) s = .next t →
    k'.toNat = k.toNat + 1 → k'.toNat ≤ x.toNat → t.pc.toNat = s.i.toNat + k.toNat →
    t.fetch = some (s.reg k ++ s.reg k')

/-! ## Display -/

/-- 44_display.md R121: every pixel off, `VF` and everything else kept; that no display event is emitted is
decision D16. -/
def Obligations.ClearScreenClearsEveryPixel : Prop :=
  ∀ s : State, decodeWord 0x00E0 = some .cls ∧
    ∃ t, exec .cls s = .next t ∧ (∀ r c, Framebuffer.pixel t.fb r c = false) ∧ t.display = s.display ∧
      RegsKept s t ∧ t.i = s.i ∧ StackKept s t ∧ MemKept s t ∧ HostKept s t ∧ t.status = s.status ∧
      t.pc = s.pc + 2 ∧ Ticked s t

/-- 44_display.md R120, R122, R124: every pixel is XORed with the sprite bit that lands on it around the
edges, `VF` is 1 exactly when a lit pixel met a 1, and the display event carries the result. The origin
is that of the state before (D8), and `n = 0` needs no memory and draws nothing (D9). -/
def Obligations.DrawXorsSpriteAndFlagsCollision : Prop :=
  ∀ (s : State) (x y : Reg) (n : Nibble), n.toNat = 0 ∨ s.i.toNat + n.toNat - 1 ≤ 4095 →
    ∃ t, exec (.drwVxVyN x y n) s = .next t ∧
      (∀ r c, Framebuffer.pixel t.fb r c = (Framebuffer.pixel s.fb r c ^^ spriteBit s x y n r c)) ∧
      ((∃ r c, spriteBit s x y n r c = true ∧ Framebuffer.pixel s.fb r c = true) → t.reg vf = 1) ∧
      ((∀ r c, spriteBit s x y n r c = true → Framebuffer.pixel s.fb r c = false) → t.reg vf = 0) ∧
      RegsKeptBut vf s t ∧ t.display = t.fb :: s.display ∧ t.i = s.i ∧ StackKept s t ∧ MemKept s t ∧
      HostKept s t ∧ t.status = s.status ∧ t.pc = s.pc + 2 ∧ Ticked s t

/-- 44_display.md R122 (90_conflicts.md C6): drawing the same sprite at the same origin again restores the
framebuffer. By R122's pseudocode the second draw sets `VF` exactly when some pixel under a 1 of the
sprite was off at the start: so whenever the framebuffer was blank and the sprite has a 1, the case C6
keeps. R122's remark that it does so for every framebuffer does not follow (log entry 21). -/
def Obligations.DrawTwiceRestoresFramebuffer : Prop :=
  ∀ (s t : State) (x y : Reg) (n : Nibble), n.toNat = 0 ∨ s.i.toNat + n.toNat - 1 ≤ 4095 →
    exec (.drwVxVyN x y n) s = .next t → t.reg x = s.reg x → t.reg y = s.reg y →
    ∃ u, exec (.drwVxVyN x y n) t = .next u ∧ u.fb = s.fb ∧
      ((∃ r c, spriteBit s x y n r c = true ∧ Framebuffer.pixel s.fb r c = false) → u.reg vf = 1) ∧
      ((∀ r c, spriteBit s x y n r c = true → Framebuffer.pixel s.fb r c = true) → u.reg vf = 0)

/-- 44_display.md R124 with decision D16: a `DRW` that completes emits one display event, the whole
framebuffer as it leaves it; no other instruction, `CLS` included, emits any. -/
def Obligations.OnlyDrawEmitsDisplayEvents : Prop :=
  ∀ (i : Instr) (s t : State), exec i s = .next t →
    ((∃ x y n, i = .drwVxVyN x y n) → faultOf i s = none → t.display = t.fb :: s.display) ∧
    ((∀ x y n, i ≠ .drwVxVyN x y n) ∨ faultOf i s ≠ none → t.display = s.display)

/-! ## Keypad -/

/-- 45_keypad.md R131, R132, R134: with a key 0 to 15 the skip is on the host's answer for that key, a free
value (D25, log entry 3), fresh for each question; above 15 it is `KEY_RANGE(V[x])` (D13) and the host is not asked. -/
def Obligations.KeySkipsAskTheHost : Prop :=
  ∀ (s : State) (x : Reg),
    (∀ k : Key, (s.reg x).toNat = k.toNat →
      (∃ t, exec (.skpVx x) s = .next t ∧ t.pc = (if s.isKeyDown k then s.pc + 2 + 2 else s.pc + 2) ∧
        RegsKept s t ∧ Ticked s t ∧ QuietApartFromHost s t ∧ HostAsked s t) ∧
      (∃ t, exec (.sknpVx x) s = .next t ∧ t.pc = (if s.isKeyDown k then s.pc + 2 else s.pc + 2 + 2) ∧
        RegsKept s t ∧ Ticked s t ∧ QuietApartFromHost s t ∧ HostAsked s t)) ∧
    (15 < (s.reg x).toNat →
      (∃ t, exec (.skpVx x) s = .next t ∧ FaultLeaves (.keyRange (s.reg x)) (s.pc + 2) s t) ∧
      (∃ t, exec (.sknpVx x) s = .next t ∧ FaultLeaves (.keyRange (s.reg x)) (s.pc + 2) s t))

/-- 45_keypad.md R133 with decision D14: when the host reports a key the whole step takes place, and the
host's next answers are fresh ones (log entry 3). -/
def Obligations.KeyWaitCompletesOnKeyPress : Prop :=
  ∀ (s : State) (x : Reg) (k : Key), s.host.pressed = some k →
    ∃ t, exec (.ldVxK x) s = .next t ∧ (t.reg x).toNat = k.toNat ∧ RegsKeptBut x s t ∧ t.pc = s.pc + 2 ∧
      Ticked s t ∧ QuietApartFromHost s t ∧ HostAsked s t

/-- 45_keypad.md R133 with decision D14: while the host reports none the step is held: no element of the
architectural state changes, `PC` and the timers included; the host's next answers are fresh
ones, so that a hold can lift (log entries 3 and 6). -/
def Obligations.KeyWaitHoldsWithoutKeyPress : Prop :=
  ∀ (s : State) (x : Reg), s.host.pressed = none →
    ∃ t, exec (.ldVxK x) s = .next t ∧ SameCore s t ∧ HostAsked s t

/-! ## HALT -/

/-- 40_cycle_and_system.md R76 with decision D6: `PC` stays advanced and the timers tick. -/
def Obligations.HaltStopsTheCore : Prop :=
  ∀ s : State, ∃ t, exec .halt s = .next t ∧ t.status = .halted ∧ t.pc = s.pc + 2 ∧ Ticked s t ∧
    RegsKept s t ∧ t.i = s.i ∧ StackKept s t ∧ ScreenKept s t ∧ MemKept s t ∧ HostKept s t

/-! ## Rules about every instruction -/

/-- 60_exceptions.md R141, R144 to R148: every instruction faults exactly when the table says, with the
cause it says, leaving what R150 says (D5); the 27 others never fault, and the status changes otherwise
only by `HALT`. -/
def Obligations.InstructionsFaultExactlyByTheTable : Prop :=
  ∀ (i : Instr) (s : State), ∃ t, exec i s = .next t ∧
    (∀ c, faultOf i s = some c → FaultLeaves c (s.pc + 2) s t) ∧
    (faultOf i s = none → t.status = if i = .halt then .halted else s.status)

/-- 10_state.md R12: a register changes only where the instruction names it as a destination, or is `VF` and
the instruction is one of the six that write it as a flag. -/
def Obligations.RegistersChangeOnlyAsDestinationOrFlag : Prop :=
  ∀ (i : Instr) (s t : State) (r : Reg), exec i s = .next t → writesReg r i = false →
    (r = vf → writesFlag i = false) → t.reg r = s.reg r

/-- 10_state.md R12: each of the six that completes leaves 0 or 1 in `VF`, unless `VF` is also its
destination `x`. -/
def Obligations.FlagsAreZeroOrOne : Prop :=
  ∀ (i : Instr) (s t : State), exec i s = .next t → writesFlag i = true → writesReg vf i = false →
    faultOf i s = none → t.reg vf = 0 ∨ t.reg vf = 1

/-- 10_state.md R13, R15, R18, R21, 20_memory.md R30: only the instructions the rules name write `I`, the
call stack, the framebuffer or memory, or ask the host. -/
def Obligations.OnlyNamedInstructionsTouchEachPart : Prop :=
  ∀ (i : Instr) (s t : State), exec i s = .next t →
    (writesI i = false → t.i = s.i) ∧ (usesStack i = false → StackKept s t) ∧
    (writesScreen i = false → t.fb = s.fb) ∧ (storesToMemory i = false → MemKept s t) ∧
    (asksHost i = false → HostKept s t) ∧ t.font = s.font

/-- 10_state.md R16, R17, 40_cycle_and_system.md R74: an instruction that does not write a timer ticks both
once, or, when it faults or is held, neither. -/
def Obligations.TimersTickOncePerCompletedInstruction : Prop :=
  ∀ (i : Instr) (s t : State), exec i s = .next t → writesTimer i = false →
    (faultOf i s = none → ((∃ x, i = .ldVxK x) → s.host.pressed ≠ none) → Ticked s t) ∧
    (faultOf i s ≠ none ∨ ((∃ x, i = .ldVxK x) ∧ s.host.pressed = none) → TimersKept s t)

/-- 10_state.md R17: `ST` is state with no observable effect: two states that differ only in `ST` step alike
but for `ST`. -/
def Obligations.SoundTimerIsNeverRead : Prop :=
  ∀ (s t : State) (b : Byte), step s = .next t →
    ∃ b' : Byte, step { s with st := b } = .next { t with st := b' }

/-! ## Invariants -/

/-- The canonical form of memory is kept by every step. -/
def Obligations.StepKeepsMemoryCanonical : Prop :=
  ∀ s t : State, MemCanonical s → step s = .next t → MemCanonical t

/-- 10_state.md R14, 41_control_flow.md R81, R88: every step keeps `PC` at most 0x10FE and every saved `PC`
at most 4096, so `PC` never wraps. -/
def Obligations.StepKeepsPcBounded : Prop :=
  ∀ s t : State, PcBounded s → step s = .next t → PcBounded t
end

