-- ==== Sys2Proof/Laws/Decode.lean ====
section
/-! SUPPORT. The fields of a word put together from digits (30_encoding.md R51, R52), and the digits a mask
keeps. -/

namespace Sys2Proof

theorem toNat_wordAddr (op : Nibble) (nnn : Addr) : (wordAddr op nnn).toNat = op.toNat * 4096 + nnn.toNat := by
  have := nnn.isLt
  simp only [wordAddr, BitVec.toNat_append, Nat.shiftLeft_eq]
  rw [← Nat.shiftLeft_eq, ← Nat.shiftLeft_add_eq_or_of_lt this, Nat.shiftLeft_eq]

theorem toNat_wordXkk (op : Nibble) (x : Reg) (kk : Byte) :
    (wordXkk op x kk).toNat = op.toNat * 4096 + x.toNat * 256 + kk.toNat := by
  have hx := x.isLt
  have hk := kk.isLt
  simp only [wordXkk, BitVec.toNat_append]
  rw [← Nat.shiftLeft_add_eq_or_of_lt hk, ← Nat.shiftLeft_add_eq_or_of_lt hx, Nat.shiftLeft_eq,
    Nat.shiftLeft_eq]
  omega

theorem toNat_wordXyn (op : Nibble) (x y : Reg) (n : Nibble) :
    (wordXyn op x y n).toNat = op.toNat * 4096 + x.toNat * 256 + y.toNat * 16 + n.toNat := by
  have hx := x.isLt
  have hy := y.isLt
  have hn := n.isLt
  simp only [wordXyn, BitVec.toNat_append]
  rw [← Nat.shiftLeft_add_eq_or_of_lt hn, ← Nat.shiftLeft_add_eq_or_of_lt hy,
    ← Nat.shiftLeft_add_eq_or_of_lt hx, Nat.shiftLeft_eq, Nat.shiftLeft_eq, Nat.shiftLeft_eq]
  omega

/-! ## Fields as numbers -/

theorem toNat_fieldX (w : Word) : (fieldX w).toNat = w.toNat / 256 % 16 := by
  simp [fieldX, Nat.shiftRight_eq_div_pow]

theorem toNat_fieldY (w : Word) : (fieldY w).toNat = w.toNat / 16 % 16 := by
  simp [fieldY, Nat.shiftRight_eq_div_pow]

theorem toNat_fieldN (w : Word) : (fieldN w).toNat = w.toNat % 16 := by
  simp [fieldN]

theorem toNat_fieldNnn (w : Word) : (fieldNnn w).toNat = w.toNat % 4096 := by
  simp [fieldNnn]

theorem toNat_fieldKk (w : Word) : (fieldKk w).toNat = w.toNat % 256 := by
  simp [fieldKk]

/-! ## Fields of the formats -/

@[simp] theorem fieldNnn_wordAddr (op : Nibble) (nnn : Addr) : fieldNnn (wordAddr op nnn) = nnn := by
  have := nnn.isLt
  apply BitVec.eq_of_toNat_eq
  rw [toNat_fieldNnn, toNat_wordAddr]
  omega

@[simp] theorem fieldX_wordXkk (op : Nibble) (x : Reg) (kk : Byte) : fieldX (wordXkk op x kk) = x := by
  have := x.isLt
  have := kk.isLt
  apply BitVec.eq_of_toNat_eq
  rw [toNat_fieldX, toNat_wordXkk]
  omega

@[simp] theorem fieldKk_wordXkk (op : Nibble) (x : Reg) (kk : Byte) : fieldKk (wordXkk op x kk) = kk := by
  have := kk.isLt
  apply BitVec.eq_of_toNat_eq
  rw [toNat_fieldKk, toNat_wordXkk]
  omega

@[simp] theorem fieldX_wordXyn (op : Nibble) (x y : Reg) (n : Nibble) : fieldX (wordXyn op x y n) = x := by
  have := x.isLt
  have := y.isLt
  have := n.isLt
  apply BitVec.eq_of_toNat_eq
  rw [toNat_fieldX, toNat_wordXyn]
  omega

@[simp] theorem fieldY_wordXyn (op : Nibble) (x y : Reg) (n : Nibble) : fieldY (wordXyn op x y n) = y := by
  have := x.isLt
  have := y.isLt
  have := n.isLt
  apply BitVec.eq_of_toNat_eq
  rw [toNat_fieldY, toNat_wordXyn]
  omega

@[simp] theorem fieldN_wordXyn (op : Nibble) (x y : Reg) (n : Nibble) : fieldN (wordXyn op x y n) = n := by
  have := n.isLt
  apply BitVec.eq_of_toNat_eq
  rw [toNat_fieldN, toNat_wordXyn]
  omega

/-! ## Masks -/

/-- Masking a word that is put together from four digits masks each digit. -/
theorem wordXyn_and (a b c d a' b' c' d' : Nibble) :
    wordXyn a b c d &&& wordXyn a' b' c' d' = wordXyn (a &&& a') (b &&& b') (c &&& c') (d &&& d') := by
  have h : (a ++ b ++ c ++ d : BitVec (4 + 4 + 4 + 4)) &&& (a' ++ b' ++ c' ++ d' : BitVec (4 + 4 + 4 + 4)) =
      (a &&& a') ++ (b &&& b') ++ (c &&& c') ++ (d &&& d') := by
    rw [BitVec.and_append, BitVec.and_append, BitVec.and_append]
  exact h

/-- Any word is its four digits. -/
theorem wordXyn_digits (w : Word) : wordXyn (w.extractLsb' 12 4) (fieldX w) (fieldY w) (fieldN w) = w := by
  apply BitVec.eq_of_toNat_eq
  rw [toNat_wordXyn, toNat_fieldX, toNat_fieldY, toNat_fieldN]
  have := w.isLt
  simp [Nat.shiftRight_eq_div_pow]
  omega

/-- Two words of four digits are equal exactly when their digits are. -/
theorem wordXyn_inj {a b c d a' b' c' d' : Nibble} :
    wordXyn a b c d = wordXyn a' b' c' d' ↔ a = a' ∧ b = b' ∧ c = c' ∧ d = d' := by
  constructor
  · intro h
    have hn := congrArg BitVec.toNat h
    simp only [toNat_wordXyn] at hn
    have := b.isLt; have := c.isLt; have := d.isLt
    have := b'.isLt; have := c'.isLt; have := d'.isLt
    refine ⟨?_, ?_, ?_, ?_⟩ <;> apply BitVec.eq_of_toNat_eq <;> omega
  · rintro ⟨rfl, rfl, rfl, rfl⟩
    rfl

theorem wordAddr_eq (op : Nibble) (nnn : Addr) :
    wordAddr op nnn = wordXyn op (nnn.extractLsb' 8 4) (nnn.extractLsb' 4 4) (nnn.extractLsb' 0 4) := by
  apply BitVec.eq_of_toNat_eq
  rw [toNat_wordAddr, toNat_wordXyn]
  have := nnn.isLt
  simp [Nat.shiftRight_eq_div_pow]
  omega

theorem wordXkk_eq (op : Nibble) (x : Reg) (kk : Byte) :
    wordXkk op x kk = wordXyn op x (kk.extractLsb' 4 4) (kk.extractLsb' 0 4) := by
  apply BitVec.eq_of_toNat_eq
  rw [toNat_wordXkk, toNat_wordXyn]
  have := kk.isLt
  simp [Nat.shiftRight_eq_div_pow]
  omega

/-- A word of four digits under a mask of four digits. -/
theorem wordXyn_and_eq_iff (a b c d ma mb mc md pa pb pc pd : Nibble) :
    wordXyn a b c d &&& wordXyn ma mb mc md = wordXyn pa pb pc pd ↔
      a &&& ma = pa ∧ b &&& mb = pb ∧ c &&& mc = pc ∧ d &&& md = pd := by
  rw [wordXyn_and, wordXyn_inj]

theorem nibble_and_F (a : Nibble) : a &&& 0xF#4 = a := BitVec.and_allOnes

theorem nibble_and_zero (a : Nibble) : a &&& 0#4 = 0#4 := BitVec.and_zero

/-! ## Which words a row matches (R52, R54) -/

theorem rowMatches_iff (w : Word) (r : Row) : rowMatches w r = true ↔ w &&& r.mask = r.bits := by
  simp [rowMatches]

/-- A `FIX` row matches its own word only. -/
theorem rowMatches_rowFix (w bits : Word) (i : Instr) : rowMatches w (rowFix bits i) = (w == bits) := by
  rw [Bool.eq_iff_iff, rowMatches_iff]
  simp only [rowFix, beq_iff_eq]
  rw [show (0xFFFF : Word) = BitVec.allOnes 16 from rfl, BitVec.and_allOnes]

/-- An `ADDR` row looks at the first digit. -/
theorem rowMatches_rowAddr (a b c d p : Nibble) (f : Addr → Instr) :
    rowMatches (wordXyn a b c d) (rowAddr (wordXyn p 0 0 0) f) = (a == p) := by
  rw [Bool.eq_iff_iff, rowMatches_iff]
  refine (wordXyn_and_eq_iff a b c d 0xF 0 0 0 p 0 0 0).trans ?_
  simp [nibble_and_F]

/-- An `XKK` row looks at the first digit. -/
theorem rowMatches_rowXkk (a b c d p : Nibble) (f : Reg → Byte → Instr) :
    rowMatches (wordXyn a b c d) (rowXkk (wordXyn p 0 0 0) f) = (a == p) := by
  rw [Bool.eq_iff_iff, rowMatches_iff]
  refine (wordXyn_and_eq_iff a b c d 0xF 0 0 0 p 0 0 0).trans ?_
  simp [nibble_and_F]

/-- An `XYN` row looks at the first digit. -/
theorem rowMatches_rowXyn (a b c d p : Nibble) (f : Reg → Reg → Nibble → Instr) :
    rowMatches (wordXyn a b c d) (rowXyn (wordXyn p 0 0 0) f) = (a == p) := by
  rw [Bool.eq_iff_iff, rowMatches_iff]
  refine (wordXyn_and_eq_iff a b c d 0xF 0 0 0 p 0 0 0).trans ?_
  simp [nibble_and_F]

/-- An `XY` row looks at the first and the last digit. -/
theorem rowMatches_rowXy (a b c d p q : Nibble) (f : Reg → Reg → Instr) :
    rowMatches (wordXyn a b c d) (rowXy (wordXyn p 0 0 q) f) = (a == p && d == q) := by
  rw [Bool.eq_iff_iff, rowMatches_iff]
  refine (wordXyn_and_eq_iff a b c d 0xF 0 0 0xF p 0 0 q).trans ?_
  simp [nibble_and_F]

/-- An `X` row looks at every digit but the second. -/
theorem rowMatches_rowX (a b c d p q r : Nibble) (f : Reg → Instr) :
    rowMatches (wordXyn a b c d) (rowX (wordXyn p 0 q r) f) = (a == p && c == q && d == r) := by
  rw [Bool.eq_iff_iff, rowMatches_iff]
  refine (wordXyn_and_eq_iff a b c d 0xF 0 0xF 0xF p 0 q r).trans ?_
  simp [nibble_and_F, and_assoc]

end Sys2Proof
end

