-- ==== Sys2Proof/Laws/State.lean ====
section
/-! SUPPORT. What each update of the state leaves in each field: one lemma per field per update. -/

namespace Sys2Proof.Machine

/-! ## `advance` -/

@[simp] theorem State.advance_v (s : State) : s.advance.v = s.v := rfl
@[simp] theorem State.advance_i (s : State) : s.advance.i = s.i := rfl
@[simp] theorem State.advance_pc (s : State) : s.advance.pc = s.pc + 2 := rfl
@[simp] theorem State.advance_stack (s : State) : s.advance.stack = s.stack := rfl
@[simp] theorem State.advance_sp (s : State) : s.advance.sp = s.sp := rfl
@[simp] theorem State.advance_dt (s : State) : s.advance.dt = s.dt := rfl
@[simp] theorem State.advance_st (s : State) : s.advance.st = s.st := rfl
@[simp] theorem State.advance_fb (s : State) : s.advance.fb = s.fb := rfl
@[simp] theorem State.advance_mem (s : State) : s.advance.mem = s.mem := rfl
@[simp] theorem State.advance_status (s : State) : s.advance.status = s.status := rfl
@[simp] theorem State.advance_font (s : State) : s.advance.font = s.font := rfl
@[simp] theorem State.advance_host (s : State) : s.advance.host = s.host := rfl
@[simp] theorem State.advance_draws (s : State) : s.advance.draws = s.draws := rfl
@[simp] theorem State.advance_display (s : State) : s.advance.display = s.display := rfl

/-! ## `jump` -/

@[simp] theorem State.jump_v (s : State) (w : Word) : (s.jump w).v = s.v := rfl
@[simp] theorem State.jump_i (s : State) (w : Word) : (s.jump w).i = s.i := rfl
@[simp] theorem State.jump_pc (s : State) (w : Word) : (s.jump w).pc = w := rfl
@[simp] theorem State.jump_stack (s : State) (w : Word) : (s.jump w).stack = s.stack := rfl
@[simp] theorem State.jump_sp (s : State) (w : Word) : (s.jump w).sp = s.sp := rfl
@[simp] theorem State.jump_dt (s : State) (w : Word) : (s.jump w).dt = s.dt := rfl
@[simp] theorem State.jump_st (s : State) (w : Word) : (s.jump w).st = s.st := rfl
@[simp] theorem State.jump_fb (s : State) (w : Word) : (s.jump w).fb = s.fb := rfl
@[simp] theorem State.jump_mem (s : State) (w : Word) : (s.jump w).mem = s.mem := rfl
@[simp] theorem State.jump_status (s : State) (w : Word) : (s.jump w).status = s.status := rfl
@[simp] theorem State.jump_font (s : State) (w : Word) : (s.jump w).font = s.font := rfl
@[simp] theorem State.jump_host (s : State) (w : Word) : (s.jump w).host = s.host := rfl
@[simp] theorem State.jump_draws (s : State) (w : Word) : (s.jump w).draws = s.draws := rfl
@[simp] theorem State.jump_display (s : State) (w : Word) : (s.jump w).display = s.display := rfl

/-! ## `setReg` -/

@[simp] theorem State.setReg_i (s : State) (x : Reg) (b : Byte) : (s.setReg x b).i = s.i := rfl
@[simp] theorem State.setReg_pc (s : State) (x : Reg) (b : Byte) : (s.setReg x b).pc = s.pc := rfl
@[simp] theorem State.setReg_stack (s : State) (x : Reg) (b : Byte) : (s.setReg x b).stack = s.stack := rfl
@[simp] theorem State.setReg_sp (s : State) (x : Reg) (b : Byte) : (s.setReg x b).sp = s.sp := rfl
@[simp] theorem State.setReg_dt (s : State) (x : Reg) (b : Byte) : (s.setReg x b).dt = s.dt := rfl
@[simp] theorem State.setReg_st (s : State) (x : Reg) (b : Byte) : (s.setReg x b).st = s.st := rfl
@[simp] theorem State.setReg_fb (s : State) (x : Reg) (b : Byte) : (s.setReg x b).fb = s.fb := rfl
@[simp] theorem State.setReg_mem (s : State) (x : Reg) (b : Byte) : (s.setReg x b).mem = s.mem := rfl
@[simp] theorem State.setReg_status (s : State) (x : Reg) (b : Byte) : (s.setReg x b).status = s.status := rfl
@[simp] theorem State.setReg_font (s : State) (x : Reg) (b : Byte) : (s.setReg x b).font = s.font := rfl
@[simp] theorem State.setReg_host (s : State) (x : Reg) (b : Byte) : (s.setReg x b).host = s.host := rfl
@[simp] theorem State.setReg_draws (s : State) (x : Reg) (b : Byte) : (s.setReg x b).draws = s.draws := rfl
@[simp] theorem State.setReg_display (s : State) (x : Reg) (b : Byte) : (s.setReg x b).display = s.display := rfl

/-! ## `setFlag` -/

@[simp] theorem State.setFlag_i (s : State) (b : Bool) : (s.setFlag b).i = s.i := rfl
@[simp] theorem State.setFlag_pc (s : State) (b : Bool) : (s.setFlag b).pc = s.pc := rfl
@[simp] theorem State.setFlag_stack (s : State) (b : Bool) : (s.setFlag b).stack = s.stack := rfl
@[simp] theorem State.setFlag_sp (s : State) (b : Bool) : (s.setFlag b).sp = s.sp := rfl
@[simp] theorem State.setFlag_dt (s : State) (b : Bool) : (s.setFlag b).dt = s.dt := rfl
@[simp] theorem State.setFlag_st (s : State) (b : Bool) : (s.setFlag b).st = s.st := rfl
@[simp] theorem State.setFlag_fb (s : State) (b : Bool) : (s.setFlag b).fb = s.fb := rfl
@[simp] theorem State.setFlag_mem (s : State) (b : Bool) : (s.setFlag b).mem = s.mem := rfl
@[simp] theorem State.setFlag_status (s : State) (b : Bool) : (s.setFlag b).status = s.status := rfl
@[simp] theorem State.setFlag_font (s : State) (b : Bool) : (s.setFlag b).font = s.font := rfl
@[simp] theorem State.setFlag_host (s : State) (b : Bool) : (s.setFlag b).host = s.host := rfl
@[simp] theorem State.setFlag_draws (s : State) (b : Bool) : (s.setFlag b).draws = s.draws := rfl
@[simp] theorem State.setFlag_display (s : State) (b : Bool) : (s.setFlag b).display = s.display := rfl

/-! ## `tick` -/

@[simp] theorem State.tick_v (s : State) : s.tick.v = s.v := rfl
@[simp] theorem State.tick_i (s : State) : s.tick.i = s.i := rfl
@[simp] theorem State.tick_pc (s : State) : s.tick.pc = s.pc := rfl
@[simp] theorem State.tick_stack (s : State) : s.tick.stack = s.stack := rfl
@[simp] theorem State.tick_sp (s : State) : s.tick.sp = s.sp := rfl
@[simp] theorem State.tick_dt (s : State) : s.tick.dt = tickDown s.dt := rfl
@[simp] theorem State.tick_st (s : State) : s.tick.st = tickDown s.st := rfl
@[simp] theorem State.tick_fb (s : State) : s.tick.fb = s.fb := rfl
@[simp] theorem State.tick_mem (s : State) : s.tick.mem = s.mem := rfl
@[simp] theorem State.tick_status (s : State) : s.tick.status = s.status := rfl
@[simp] theorem State.tick_font (s : State) : s.tick.font = s.font := rfl
@[simp] theorem State.tick_host (s : State) : s.tick.host = s.host := rfl
@[simp] theorem State.tick_draws (s : State) : s.tick.draws = s.draws := rfl
@[simp] theorem State.tick_display (s : State) : s.tick.display = s.display := rfl

/-! ## `renewHost` -/

@[simp] theorem State.renewHost_v (s : State) : s.renewHost.v = s.v := rfl
@[simp] theorem State.renewHost_i (s : State) : s.renewHost.i = s.i := rfl
@[simp] theorem State.renewHost_pc (s : State) : s.renewHost.pc = s.pc := rfl
@[simp] theorem State.renewHost_stack (s : State) : s.renewHost.stack = s.stack := rfl
@[simp] theorem State.renewHost_sp (s : State) : s.renewHost.sp = s.sp := rfl
@[simp] theorem State.renewHost_dt (s : State) : s.renewHost.dt = s.dt := rfl
@[simp] theorem State.renewHost_st (s : State) : s.renewHost.st = s.st := rfl
@[simp] theorem State.renewHost_fb (s : State) : s.renewHost.fb = s.fb := rfl
@[simp] theorem State.renewHost_mem (s : State) : s.renewHost.mem = s.mem := rfl
@[simp] theorem State.renewHost_status (s : State) : s.renewHost.status = s.status := rfl
@[simp] theorem State.renewHost_font (s : State) : s.renewHost.font = s.font := rfl
@[simp] theorem State.renewHost_host (s : State) : s.renewHost.host = Config.hostAnswers s.draws := rfl
@[simp] theorem State.renewHost_draws (s : State) : s.renewHost.draws = s.draws + 1 := rfl
@[simp] theorem State.renewHost_display (s : State) : s.renewHost.display = s.display := rfl

/-! ## `emitDisplay` -/

@[simp] theorem State.emitDisplay_v (s : State) : s.emitDisplay.v = s.v := rfl
@[simp] theorem State.emitDisplay_i (s : State) : s.emitDisplay.i = s.i := rfl
@[simp] theorem State.emitDisplay_pc (s : State) : s.emitDisplay.pc = s.pc := rfl
@[simp] theorem State.emitDisplay_stack (s : State) : s.emitDisplay.stack = s.stack := rfl
@[simp] theorem State.emitDisplay_sp (s : State) : s.emitDisplay.sp = s.sp := rfl
@[simp] theorem State.emitDisplay_dt (s : State) : s.emitDisplay.dt = s.dt := rfl
@[simp] theorem State.emitDisplay_st (s : State) : s.emitDisplay.st = s.st := rfl
@[simp] theorem State.emitDisplay_fb (s : State) : s.emitDisplay.fb = s.fb := rfl
@[simp] theorem State.emitDisplay_mem (s : State) : s.emitDisplay.mem = s.mem := rfl
@[simp] theorem State.emitDisplay_status (s : State) : s.emitDisplay.status = s.status := rfl
@[simp] theorem State.emitDisplay_font (s : State) : s.emitDisplay.font = s.font := rfl
@[simp] theorem State.emitDisplay_host (s : State) : s.emitDisplay.host = s.host := rfl
@[simp] theorem State.emitDisplay_draws (s : State) : s.emitDisplay.draws = s.draws := rfl
@[simp] theorem State.emitDisplay_display (s : State) : s.emitDisplay.display = s.fb :: s.display := rfl

/-! ## `writeByte` -/

@[simp] theorem State.writeByte_v (s : State) (a : Nat) (b : Byte) : (s.writeByte a b).v = s.v := rfl
@[simp] theorem State.writeByte_i (s : State) (a : Nat) (b : Byte) : (s.writeByte a b).i = s.i := rfl
@[simp] theorem State.writeByte_pc (s : State) (a : Nat) (b : Byte) : (s.writeByte a b).pc = s.pc := rfl
@[simp] theorem State.writeByte_stack (s : State) (a : Nat) (b : Byte) : (s.writeByte a b).stack = s.stack := rfl
@[simp] theorem State.writeByte_sp (s : State) (a : Nat) (b : Byte) : (s.writeByte a b).sp = s.sp := rfl
@[simp] theorem State.writeByte_dt (s : State) (a : Nat) (b : Byte) : (s.writeByte a b).dt = s.dt := rfl
@[simp] theorem State.writeByte_st (s : State) (a : Nat) (b : Byte) : (s.writeByte a b).st = s.st := rfl
@[simp] theorem State.writeByte_fb (s : State) (a : Nat) (b : Byte) : (s.writeByte a b).fb = s.fb := rfl
@[simp] theorem State.writeByte_mem (s : State) (a : Nat) (b : Byte) : (s.writeByte a b).mem = Memory.write s.font s.mem a b := rfl
@[simp] theorem State.writeByte_status (s : State) (a : Nat) (b : Byte) : (s.writeByte a b).status = s.status := rfl
@[simp] theorem State.writeByte_font (s : State) (a : Nat) (b : Byte) : (s.writeByte a b).font = s.font := rfl
@[simp] theorem State.writeByte_host (s : State) (a : Nat) (b : Byte) : (s.writeByte a b).host = s.host := rfl
@[simp] theorem State.writeByte_draws (s : State) (a : Nat) (b : Byte) : (s.writeByte a b).draws = s.draws := rfl
@[simp] theorem State.writeByte_display (s : State) (a : Nat) (b : Byte) : (s.writeByte a b).display = s.display := rfl

/-! ## `skipIf` -/

@[simp] theorem State.skipIf_v (s : State) (b : Bool) : (s.skipIf b).v = s.v := by
  cases b <;> rfl
@[simp] theorem State.skipIf_i (s : State) (b : Bool) : (s.skipIf b).i = s.i := by
  cases b <;> rfl
@[simp] theorem State.skipIf_pc (s : State) (b : Bool) : (s.skipIf b).pc = if b then s.pc + 2 else s.pc := by
  cases b <;> rfl
@[simp] theorem State.skipIf_stack (s : State) (b : Bool) : (s.skipIf b).stack = s.stack := by
  cases b <;> rfl
@[simp] theorem State.skipIf_sp (s : State) (b : Bool) : (s.skipIf b).sp = s.sp := by
  cases b <;> rfl
@[simp] theorem State.skipIf_dt (s : State) (b : Bool) : (s.skipIf b).dt = s.dt := by
  cases b <;> rfl
@[simp] theorem State.skipIf_st (s : State) (b : Bool) : (s.skipIf b).st = s.st := by
  cases b <;> rfl
@[simp] theorem State.skipIf_fb (s : State) (b : Bool) : (s.skipIf b).fb = s.fb := by
  cases b <;> rfl
@[simp] theorem State.skipIf_mem (s : State) (b : Bool) : (s.skipIf b).mem = s.mem := by
  cases b <;> rfl
@[simp] theorem State.skipIf_status (s : State) (b : Bool) : (s.skipIf b).status = s.status := by
  cases b <;> rfl
@[simp] theorem State.skipIf_font (s : State) (b : Bool) : (s.skipIf b).font = s.font := by
  cases b <;> rfl
@[simp] theorem State.skipIf_host (s : State) (b : Bool) : (s.skipIf b).host = s.host := by
  cases b <;> rfl
@[simp] theorem State.skipIf_draws (s : State) (b : Bool) : (s.skipIf b).draws = s.draws := by
  cases b <;> rfl
@[simp] theorem State.skipIf_display (s : State) (b : Bool) : (s.skipIf b).display = s.display := by
  cases b <;> rfl

/-! ## `setRegs` -/

@[simp] theorem State.setRegs_i (bs : List Byte) :
    ∀ (s : State) (k : Nat), (s.setRegs k bs).i = s.i := by
  induction bs with
  | nil => exact fun _ _ => rfl
  | cons b bs ih => exact fun s k => ih _ _
@[simp] theorem State.setRegs_pc (bs : List Byte) :
    ∀ (s : State) (k : Nat), (s.setRegs k bs).pc = s.pc := by
  induction bs with
  | nil => exact fun _ _ => rfl
  | cons b bs ih => exact fun s k => ih _ _
@[simp] theorem State.setRegs_stack (bs : List Byte) :
    ∀ (s : State) (k : Nat), (s.setRegs k bs).stack = s.stack := by
  induction bs with
  | nil => exact fun _ _ => rfl
  | cons b bs ih => exact fun s k => ih _ _
@[simp] theorem State.setRegs_sp (bs : List Byte) :
    ∀ (s : State) (k : Nat), (s.setRegs k bs).sp = s.sp := by
  induction bs with
  | nil => exact fun _ _ => rfl
  | cons b bs ih => exact fun s k => ih _ _
@[simp] theorem State.setRegs_dt (bs : List Byte) :
    ∀ (s : State) (k : Nat), (s.setRegs k bs).dt = s.dt := by
  induction bs with
  | nil => exact fun _ _ => rfl
  | cons b bs ih => exact fun s k => ih _ _
@[simp] theorem State.setRegs_st (bs : List Byte) :
    ∀ (s : State) (k : Nat), (s.setRegs k bs).st = s.st := by
  induction bs with
  | nil => exact fun _ _ => rfl
  | cons b bs ih => exact fun s k => ih _ _
@[simp] theorem State.setRegs_fb (bs : List Byte) :
    ∀ (s : State) (k : Nat), (s.setRegs k bs).fb = s.fb := by
  induction bs with
  | nil => exact fun _ _ => rfl
  | cons b bs ih => exact fun s k => ih _ _
@[simp] theorem State.setRegs_mem (bs : List Byte) :
    ∀ (s : State) (k : Nat), (s.setRegs k bs).mem = s.mem := by
  induction bs with
  | nil => exact fun _ _ => rfl
  | cons b bs ih => exact fun s k => ih _ _
@[simp] theorem State.setRegs_status (bs : List Byte) :
    ∀ (s : State) (k : Nat), (s.setRegs k bs).status = s.status := by
  induction bs with
  | nil => exact fun _ _ => rfl
  | cons b bs ih => exact fun s k => ih _ _
@[simp] theorem State.setRegs_font (bs : List Byte) :
    ∀ (s : State) (k : Nat), (s.setRegs k bs).font = s.font := by
  induction bs with
  | nil => exact fun _ _ => rfl
  | cons b bs ih => exact fun s k => ih _ _
@[simp] theorem State.setRegs_host (bs : List Byte) :
    ∀ (s : State) (k : Nat), (s.setRegs k bs).host = s.host := by
  induction bs with
  | nil => exact fun _ _ => rfl
  | cons b bs ih => exact fun s k => ih _ _
@[simp] theorem State.setRegs_draws (bs : List Byte) :
    ∀ (s : State) (k : Nat), (s.setRegs k bs).draws = s.draws := by
  induction bs with
  | nil => exact fun _ _ => rfl
  | cons b bs ih => exact fun s k => ih _ _
@[simp] theorem State.setRegs_display (bs : List Byte) :
    ∀ (s : State) (k : Nat), (s.setRegs k bs).display = s.display := by
  induction bs with
  | nil => exact fun _ _ => rfl
  | cons b bs ih => exact fun s k => ih _ _

/-! ## `writeBytes` -/

@[simp] theorem State.writeBytes_v (bs : List Byte) :
    ∀ (s : State) (a : Nat), (s.writeBytes a bs).v = s.v := by
  induction bs with
  | nil => exact fun _ _ => rfl
  | cons b bs ih => exact fun s a => ih _ _
@[simp] theorem State.writeBytes_i (bs : List Byte) :
    ∀ (s : State) (a : Nat), (s.writeBytes a bs).i = s.i := by
  induction bs with
  | nil => exact fun _ _ => rfl
  | cons b bs ih => exact fun s a => ih _ _
@[simp] theorem State.writeBytes_pc (bs : List Byte) :
    ∀ (s : State) (a : Nat), (s.writeBytes a bs).pc = s.pc := by
  induction bs with
  | nil => exact fun _ _ => rfl
  | cons b bs ih => exact fun s a => ih _ _
@[simp] theorem State.writeBytes_stack (bs : List Byte) :
    ∀ (s : State) (a : Nat), (s.writeBytes a bs).stack = s.stack := by
  induction bs with
  | nil => exact fun _ _ => rfl
  | cons b bs ih => exact fun s a => ih _ _
@[simp] theorem State.writeBytes_sp (bs : List Byte) :
    ∀ (s : State) (a : Nat), (s.writeBytes a bs).sp = s.sp := by
  induction bs with
  | nil => exact fun _ _ => rfl
  | cons b bs ih => exact fun s a => ih _ _
@[simp] theorem State.writeBytes_dt (bs : List Byte) :
    ∀ (s : State) (a : Nat), (s.writeBytes a bs).dt = s.dt := by
  induction bs with
  | nil => exact fun _ _ => rfl
  | cons b bs ih => exact fun s a => ih _ _
@[simp] theorem State.writeBytes_st (bs : List Byte) :
    ∀ (s : State) (a : Nat), (s.writeBytes a bs).st = s.st := by
  induction bs with
  | nil => exact fun _ _ => rfl
  | cons b bs ih => exact fun s a => ih _ _
@[simp] theorem State.writeBytes_fb (bs : List Byte) :
    ∀ (s : State) (a : Nat), (s.writeBytes a bs).fb = s.fb := by
  induction bs with
  | nil => exact fun _ _ => rfl
  | cons b bs ih => exact fun s a => ih _ _
@[simp] theorem State.writeBytes_status (bs : List Byte) :
    ∀ (s : State) (a : Nat), (s.writeBytes a bs).status = s.status := by
  induction bs with
  | nil => exact fun _ _ => rfl
  | cons b bs ih => exact fun s a => ih _ _
@[simp] theorem State.writeBytes_font (bs : List Byte) :
    ∀ (s : State) (a : Nat), (s.writeBytes a bs).font = s.font := by
  induction bs with
  | nil => exact fun _ _ => rfl
  | cons b bs ih => exact fun s a => ih _ _
@[simp] theorem State.writeBytes_host (bs : List Byte) :
    ∀ (s : State) (a : Nat), (s.writeBytes a bs).host = s.host := by
  induction bs with
  | nil => exact fun _ _ => rfl
  | cons b bs ih => exact fun s a => ih _ _
@[simp] theorem State.writeBytes_draws (bs : List Byte) :
    ∀ (s : State) (a : Nat), (s.writeBytes a bs).draws = s.draws := by
  induction bs with
  | nil => exact fun _ _ => rfl
  | cons b bs ih => exact fun s a => ih _ _
@[simp] theorem State.writeBytes_display (bs : List Byte) :
    ∀ (s : State) (a : Nat), (s.writeBytes a bs).display = s.display := by
  induction bs with
  | nil => exact fun _ _ => rfl
  | cons b bs ih => exact fun s a => ih _ _

end Sys2Proof.Machine
end

