-- ==== Sys2Proof/Laws/Memory.lean ====
section
/-! SUPPORT. Memory: what a read gives after a write, that writing keeps the canonical form, and what the
checked accesses answer (20_memory.md R32). -/

namespace Sys2Proof.Machine

/-! ## One cell list -/

theorem Memory.lookup_insert (m : List Host.Cell) (a : Nat) (v : Byte) (b : Nat) :
    Memory.lookup (Memory.insert m a v) b = if b = a then some v else Memory.lookup m b := by
  induction m with
  | nil => simp [Memory.insert, Memory.lookup]
  | cons c m ih =>
    simp only [Memory.insert]
    split_ifs with h1 h2 h3 <;> simp only [Memory.lookup, ih] <;> split_ifs <;> first | rfl | omega

theorem Memory.wf_cons {f : Font} {c : Host.Cell} {m : List Host.Cell} :
    Memory.wf f (c :: m) = true ↔ c.1 < 4096 ∧ c.2 ≠ Memory.base f c.1 ∧
      (∀ d ∈ m, c.1 < d.1) ∧ Memory.wf f m = true := by
  simp [Memory.wf, Config.memSize, and_assoc]

theorem Memory.lookup_erase (m : List Host.Cell) (a b : Nat) :
    Memory.lookup (Memory.erase m a) b = if b = a then none else Memory.lookup m b := by
  induction m with
  | nil => simp [Memory.erase, Memory.lookup]
  | cons c m ih =>
    simp only [Memory.erase] at ih ⊢
    by_cases hc : c.1 = a
    · rw [List.filter_cons_of_neg (by simp [hc]), ih]
      by_cases hb : b = a
      · simp [hb]
      · simp [Memory.lookup, hb, hc]
    · rw [List.filter_cons_of_pos (by simp [hc])]
      simp only [Memory.lookup, ih]
      split_ifs <;> first | rfl | omega

theorem Memory.mem_insert {m : List Host.Cell} {a : Nat} {v : Byte} {d : Host.Cell}
    (h : d ∈ Memory.insert m a v) : d = (a, v) ∨ d ∈ m := by
  induction m with
  | nil => simpa [Memory.insert] using h
  | cons c m ih =>
    simp only [Memory.insert] at h
    split_ifs at h <;> simp only [List.mem_cons] at h ⊢
    · exact h
    · tauto
    · rcases h with h | h
      · tauto
      · rcases ih h with h | h <;> tauto

theorem Memory.wf_insert {f : Font} {m : List Host.Cell} {a : Nat} {v : Byte}
    (h : Memory.wf f m = true) (ha : a < 4096) (hv : v ≠ Memory.base f a) :
    Memory.wf f (Memory.insert m a v) = true := by
  induction m with
  | nil => exact Memory.wf_cons.mpr ⟨ha, hv, by simp, rfl⟩
  | cons c m ih =>
    obtain ⟨hc, hcv, hlt, hm⟩ := Memory.wf_cons.mp h
    simp only [Memory.insert]
    split_ifs with h1 h2
    · refine Memory.wf_cons.mpr ⟨ha, hv, fun d hd => ?_, h⟩
      rcases List.mem_cons.mp hd with rfl | hd
      · exact h1
      · exact h1.trans (hlt d hd)
    · exact Memory.wf_cons.mpr ⟨ha, hv, fun d hd => h2 ▸ hlt d hd, hm⟩
    · refine Memory.wf_cons.mpr ⟨hc, hcv, fun d hd => ?_, ih hm⟩
      rcases Memory.mem_insert hd with rfl | hd
      · exact (by omega : c.1 < a)
      · exact hlt d hd

theorem Memory.wf_erase {f : Font} {m : List Host.Cell} (h : Memory.wf f m = true) (a : Nat) :
    Memory.wf f (Memory.erase m a) = true := by
  induction m with
  | nil => exact h
  | cons c m ih =>
    obtain ⟨hc, hcv, hlt, hm⟩ := Memory.wf_cons.mp h
    simp only [Memory.erase] at ih ⊢
    by_cases hca : c.1 = a
    · rw [List.filter_cons_of_neg (by simp [hca])]
      exact ih hm
    · rw [List.filter_cons_of_pos (by simp [hca])]
      exact Memory.wf_cons.mpr ⟨hc, hcv, fun d hd => hlt d (List.mem_of_mem_filter hd), ih hm⟩

/-- A write inside memory keeps the canonical form. -/
theorem Memory.wf_write {f : Font} {m : List Host.Cell} {a : Nat} (h : Memory.wf f m = true)
    (ha : a < 4096) (v : Byte) : Memory.wf f (Memory.write f m a v) = true := by
  unfold Memory.write
  split_ifs with hv
  · exact Memory.wf_erase h a
  · exact Memory.wf_insert h ha hv

/-- A read after a write gives the byte written there, and what it gave before elsewhere. -/
theorem Memory.read_write (f : Font) (m : List Host.Cell) (a : Nat) (v : Byte) (b : Nat) :
    Memory.read f (Memory.write f m a v) b = if b = a then v else Memory.read f m b := by
  unfold Memory.read Memory.write
  split_ifs with hv hb hb
  · simp [Memory.lookup_erase, hb, hv]
  · simp [Memory.lookup_erase, hb]
  · simp [Memory.lookup_insert, hb]
  · simp [Memory.lookup_insert, hb]

/-! ## The state's memory -/

@[simp] theorem State.readByte_writeByte (s : State) (a : Nat) (v : Byte) (b : Nat) :
    (s.writeByte a v).readByte b = if b = a then v else s.readByte b :=
  Memory.read_write s.font s.mem a v b

theorem State.wf_writeByte {s : State} {a : Nat} (h : Memory.wf s.font s.mem = true)
    (ha : a < 4096) (v : Byte) :
    Memory.wf (s.writeByte a v).font (s.writeByte a v).mem = true :=
  Memory.wf_write h ha v

/-- Writing bytes inside memory keeps the canonical form. -/
theorem State.wf_writeBytes (bs : List Byte) : ∀ {s : State} {a : Nat},
    Memory.wf s.font s.mem = true → a + bs.length ≤ 4096 →
      Memory.wf (s.writeBytes a bs).font (s.writeBytes a bs).mem = true := by
  induction bs with
  | nil => exact fun h _ => h
  | cons b bs ih =>
    intro s a h ha
    simp only [List.length_cons] at ha
    exact ih (State.wf_writeByte h (by omega) b) (by omega)

/-- Reading after writing successive bytes. -/
theorem State.readByte_writeBytes (bs : List Byte) : ∀ (s : State) (a b : Nat),
    (s.writeBytes a bs).readByte b =
      if h : a ≤ b ∧ b < a + bs.length then bs[b - a]'(by omega) else s.readByte b := by
  induction bs with
  | nil =>
    intro s a b
    simp only [List.length_nil, Nat.add_zero]
    rw [dif_neg (by omega)]
    rfl
  | cons v bs ih =>
    intro s a b
    refine (ih (s.writeByte a v) (a + 1) b).trans ?_
    simp only [List.length_cons]
    rcases Nat.lt_trichotomy b a with hb | hb | hb
    · rw [dif_neg (by omega), dif_neg (by omega), State.readByte_writeByte, if_neg (by omega)]
    · subst hb
      rw [dif_neg (by omega), dif_pos (by omega), State.readByte_writeByte, if_pos rfl]
      simp
    · by_cases hin : b < a + (bs.length + 1)
      · rw [dif_pos (by omega), dif_pos (by omega)]
        obtain ⟨k, rfl⟩ : ∃ k, b = a + 1 + k := ⟨b - (a + 1), by omega⟩
        simp [show a + 1 + k - a = k + 1 by omega]
      · rw [dif_neg (by omega), dif_neg (by omega), State.readByte_writeByte, if_neg (by omega)]

/-! ## The checked accesses (R32) -/

theorem inBounds_iff (a n : Nat) : inBounds a n = true ↔ n = 0 ∨ a + n ≤ 4096 := by
  simp [inBounds, Config.memSize]

/-- All a checked read can answer. -/
theorem State.memRead_eq (s : State) (a n : Nat) :
    s.memRead a n =
      if n = 0 ∨ a + n ≤ 4096 then some ((List.range n).map fun k => s.readByte (a + k)) else none := by
  simp only [State.memRead, inBounds_iff]

/-- All a checked write can answer. -/
theorem State.memWrite_eq (s : State) (a : Nat) (bs : List Byte) :
    s.memWrite a bs =
      if bs.length = 0 ∨ a + bs.length ≤ 4096 then some (s.writeBytes a bs) else none := by
  simp only [State.memWrite, inBounds_iff]

/-- A checked write that answers has kept the canonical form. -/
theorem State.wf_memWrite {s t : State} {a : Nat} {bs : List Byte} (h : Memory.wf s.font s.mem = true)
    (ht : s.memWrite a bs = some t) : Memory.wf t.font t.mem = true := by
  rw [State.memWrite_eq] at ht
  split_ifs at ht with hb
  obtain rfl := Option.some.inj ht
  rcases hb with hb | hb
  · rw [List.length_eq_zero_iff.mp hb]; exact h
  · exact State.wf_writeBytes bs h hb

/-- The big-endian word a fetch answers (40_cycle_and_system.md R71). -/
theorem State.fetch_eq (s : State) :
    s.fetch = if s.pc.toNat + 1 ≤ 4095 then
      some (wordOfBytes (s.readByte s.pc.toNat) (s.readByte (s.pc.toNat + 1))) else none := by
  unfold State.fetch
  rw [State.memRead_eq]
  by_cases h : s.pc.toNat + 1 ≤ 4095
  · rw [if_pos (Or.inr (by omega)), if_pos h]
    rfl
  · rw [if_neg (by omega), if_neg h]

/-! ## Reset (10_state.md R23) -/

theorem State.readByte_resetWith (f : Font) (a : Nat) : (State.resetWith f).readByte a = Memory.base f a := rfl

theorem State.wf_resetWith (f : Font) : Memory.wf (State.resetWith f).font (State.resetWith f).mem = true := rfl

theorem State.wf_reset : Memory.wf State.reset.font State.reset.mem = true := rfl

end Sys2Proof.Machine
end

