-- ==== Sys2Proof/Laws/Ops.lean ====
section
/-! SUPPORT. One lemma per shared operation: registers, call stack, timers, operands. -/

namespace Sys2Proof.Machine

/-! ## Registers -/

theorem State.reg_congr {s t : State} (h : t.v = s.v) (r : Reg) : t.reg r = s.reg r := by
  simp only [State.reg, h]

@[simp] theorem State.reg_setReg (s : State) (x : Reg) (b : Byte) (r : Reg) :
    (s.setReg x b).reg r = if r = x then b else s.reg r := by
  simp only [State.reg, State.setReg, Vector.getElem_set]
  by_cases h : r = x
  · simp [h]
  · rw [if_neg h, if_neg fun e => h (BitVec.eq_of_toNat_eq e.symm)]

@[simp] theorem State.reg_setFlag (s : State) (b : Bool) (r : Reg) :
    (s.setFlag b).reg r = if r = vf then flagByte b else s.reg r := State.reg_setReg s vf _ r

@[simp] theorem State.reg_advance (s : State) (r : Reg) : s.advance.reg r = s.reg r := rfl
@[simp] theorem State.reg_jump (s : State) (w : Word) (r : Reg) : (s.jump w).reg r = s.reg r := rfl
@[simp] theorem State.reg_tick (s : State) (r : Reg) : s.tick.reg r = s.reg r := rfl
@[simp] theorem State.reg_renewHost (s : State) (r : Reg) : s.renewHost.reg r = s.reg r := rfl
@[simp] theorem State.reg_emitDisplay (s : State) (r : Reg) : s.emitDisplay.reg r = s.reg r := rfl
@[simp] theorem State.reg_skipIf (s : State) (b : Bool) (r : Reg) : (s.skipIf b).reg r = s.reg r :=
  State.reg_congr (State.skipIf_v s b) r
@[simp] theorem State.reg_writeBytes (s : State) (a : Nat) (bs : List Byte) (r : Reg) :
    (s.writeBytes a bs).reg r = s.reg r := State.reg_congr (State.writeBytes_v bs s a) r

/-- What a register holds after successive registers from `k` on are written. -/
theorem State.reg_setRegs (bs : List Byte) : ∀ (s : State) (k : Nat) (r : Reg),
    (s.setRegs k bs).reg r =
      if h : k ≤ r.toNat ∧ r.toNat < k + bs.length then bs[r.toNat - k]'(by omega) else s.reg r := by
  induction bs with
  | nil =>
    intro s k r
    simp only [List.length_nil, Nat.add_zero]
    rw [dif_neg (by omega)]
    rfl
  | cons b bs ih =>
    intro s k r
    refine (ih { s with v := s.v.setIfInBounds k b } (k + 1) r).trans ?_
    simp only [List.length_cons]
    have hr := r.isLt
    rcases Nat.lt_trichotomy r.toNat k with h | h | h
    · rw [dif_neg (by omega), dif_neg (by omega)]
      simp only [State.reg, Vector.getElem_setIfInBounds]
      rw [if_neg (by omega)]
    · subst h
      rw [dif_neg (by omega), dif_pos (by omega)]
      simp only [State.reg, Vector.getElem_setIfInBounds]
      simp
    · by_cases hin : r.toNat < k + (bs.length + 1)
      · rw [dif_pos (by omega), dif_pos (by omega)]
        simp [show r.toNat - k = r.toNat - (k + 1) + 1 by omega]
      · rw [dif_neg (by omega), dif_neg (by omega)]
        simp only [State.reg, Vector.getElem_setIfInBounds]
        rw [if_neg (by omega)]

@[simp] theorem State.length_regsUpTo (s : State) (x : Reg) : (s.regsUpTo x).length = x.toNat + 1 := by
  have := x.isLt
  simp only [State.regsUpTo, List.length_take, Vector.length_toList]
  omega

/-- `V[0]` to `V[x]`, one by one. -/
theorem State.getElem_regsUpTo (s : State) (x r : Reg) (h : r.toNat < (s.regsUpTo x).length) :
    (s.regsUpTo x)[r.toNat] = s.reg r := by
  simp [State.regsUpTo, State.reg]

/-! ## Memory seen through the other updates -/

theorem State.readByte_congr {s t : State} (hf : t.font = s.font) (hm : t.mem = s.mem) (a : Nat) :
    t.readByte a = s.readByte a := by
  simp only [State.readByte, hf, hm]

@[simp] theorem State.readByte_advance (s : State) (a : Nat) : s.advance.readByte a = s.readByte a := rfl
@[simp] theorem State.readByte_jump (s : State) (w : Word) (a : Nat) : (s.jump w).readByte a = s.readByte a := rfl
@[simp] theorem State.readByte_setReg (s : State) (x : Reg) (b : Byte) (a : Nat) :
    (s.setReg x b).readByte a = s.readByte a := rfl
@[simp] theorem State.readByte_setFlag (s : State) (b : Bool) (a : Nat) :
    (s.setFlag b).readByte a = s.readByte a := rfl
@[simp] theorem State.readByte_tick (s : State) (a : Nat) : s.tick.readByte a = s.readByte a := rfl
@[simp] theorem State.readByte_renewHost (s : State) (a : Nat) : s.renewHost.readByte a = s.readByte a := rfl
@[simp] theorem State.readByte_emitDisplay (s : State) (a : Nat) :
    s.emitDisplay.readByte a = s.readByte a := rfl
@[simp] theorem State.readByte_skipIf (s : State) (b : Bool) (a : Nat) :
    (s.skipIf b).readByte a = s.readByte a :=
  State.readByte_congr (State.skipIf_font s b) (State.skipIf_mem s b) a
@[simp] theorem State.readByte_setRegs (s : State) (k : Nat) (bs : List Byte) (a : Nat) :
    (s.setRegs k bs).readByte a = s.readByte a :=
  State.readByte_congr (State.setRegs_font bs s k) (State.setRegs_mem bs s k) a

/-! ## Call stack (10_state.md R15) -/

/-- All a push can answer. -/
theorem State.push_cases (s : State) (w : Word) :
    (∃ h : s.sp.val < 16, s.push w =
      some { s with stack := s.stack.set s.sp.val w h, sp := ⟨s.sp.val + 1, by omega⟩ }) ∨
    (s.sp.val = 16 ∧ s.push w = none) := by
  have := s.sp.isLt
  by_cases h : s.sp.val < 16
  · exact .inl ⟨h, dif_pos h⟩
  · exact .inr ⟨by omega, dif_neg h⟩

/-- All a pop can answer. -/
theorem State.pop_cases (s : State) :
    (s.sp.val = 0 ∧ s.pop = none) ∨
    (∃ h : 0 < s.sp.val, s.pop =
      some (s.stack[s.sp.val - 1]'(by have := s.sp.isLt; omega),
        { s with sp := ⟨s.sp.val - 1, by have := s.sp.isLt; omega⟩ })) := by
  by_cases h : s.sp.val = 0
  · exact .inl ⟨h, dif_pos h⟩
  · exact .inr ⟨by omega, dif_neg h⟩

/-! ## Timers (40_cycle_and_system.md R74) -/

/-- A tick is one less, floor at 0. -/
theorem toNat_tickDown (d : Byte) : (tickDown d).toNat = d.toNat - 1 := by
  unfold tickDown
  split_ifs with h
  · simp [h]
  · have := d.isLt
    have : d.toNat ≠ 0 := fun e => h (BitVec.eq_of_toNat_eq e)
    rw [BitVec.toNat_sub]
    simp
    omega

/-! ## How a step ends -/

theorem complete_eq (s : State) : complete s = .next s.tick := rfl

theorem raise_eq (c : Cause) (s : State) : raise c s = .next { s with status := .faulted c } := rfl

/-! ## Operands -/

theorem toNat_addrWord (nnn : Addr) : (addrWord nnn).toNat = nnn.toNat := by
  have := nnn.isLt
  simp [addrWord, BitVec.toNat_setWidth]
  omega

theorem toNat_byteWord (b : Byte) : (byteWord b).toNat = b.toNat := by
  have := b.isLt
  simp [byteWord, BitVec.toNat_setWidth]
  omega

theorem toNat_glyphAddress (b : Byte) : (glyphAddress b).toNat = b.toNat * 5 := by
  have := b.isLt
  simp [glyphAddress, BitVec.toNat_mul, toNat_byteWord]
  omega

theorem toNat_keyByte (k : Key) : (keyByte k).toNat = k.toNat := by
  have := k.isLt
  simp [keyByte, BitVec.toNat_setWidth]
  omega

/-- All a key operand can be (45_keypad.md R134). -/
theorem keyOfByte_cases (b : Byte) :
    (15 < b.toNat ∧ keyOfByte b = none) ∨ (b.toNat ≤ 15 ∧ keyOfByte b = some (b.setWidth 4)) := by
  unfold keyOfByte
  split_ifs with h
  · exact .inl ⟨h, rfl⟩
  · exact .inr ⟨by omega, rfl⟩

/-- The three decimal digits as numbers (43_memory_timer_bcd.md R108). -/
theorem toNat_bcdDigits (b : Byte) :
    (bcdDigits b).map BitVec.toNat = [b.toNat / 100, b.toNat / 10 % 10, b.toNat % 10] := by
  simp [bcdDigits, BitVec.toNat_udiv, BitVec.toNat_umod]

theorem flagByte_eq (b : Bool) : flagByte b = if b then 1 else 0 := rfl

end Sys2Proof.Machine
end

