-- ==== Sys2Proof/Laws/Display.lean ====
section
/-! SUPPORT. The sprite engine: what each pixel is after a sprite is drawn, and when it collides
(44_display.md R120, R122). -/

namespace Sys2Proof.Machine

@[simp] theorem Framebuffer.pixel_setPixel (fb : Framebuffer) (r : Fin 32) (c : Fin 64) (b : Bool)
    (r' : Fin 32) (c' : Fin 64) :
    Framebuffer.pixel (Framebuffer.setPixel fb r c b) r' c' =
      if r' = r ∧ c' = c then b else Framebuffer.pixel fb r' c' := by
  simp only [Framebuffer.pixel, Framebuffer.setPixel, Fin.getElem_fin, Vector.getElem_set, Fin.ext_iff]
  by_cases hr : r.val = r'.val
  · simp only [hr, if_true, Vector.getElem_set]
    by_cases hc : c.val = c'.val <;> simp [hc, eq_comm]
  · simp [hr]
    omega

@[simp] theorem pixel_blankScreen (r : Fin 32) (c : Fin 64) : Framebuffer.pixel blankScreen r c = false := by
  simp [Framebuffer.pixel, blankScreen]

/-- Two framebuffers with the same pixels are the same. -/
theorem Framebuffer.ext_pixel {fb fb' : Framebuffer}
    (h : ∀ r c, Framebuffer.pixel fb r c = Framebuffer.pixel fb' r c) : fb = fb' := by
  apply Vector.ext
  intro r hr
  apply Vector.ext
  intro c hc
  exact h ⟨r, hr⟩ ⟨c, hc⟩

/-- How many columns right of the origin a column lies, counted around the edge. -/
def colsRight (ox : Nat) (c : Fin 64) : Nat := (c.val + 64 - ox % 64) % 64

/-- How many rows below the origin a row lies, counted around the edge. -/
def rowsBelow (oy : Nat) (r : Fin 32) : Nat := (r.val + 32 - oy % 32) % 32

theorem eq_wrapCol_iff {ox j : Nat} (hj : j < 64) (c : Fin 64) : c = wrapCol (ox + j) ↔ colsRight ox c = j := by
  simp only [Fin.ext_iff, wrapCol, Fin.val_ofNat, colsRight]
  have := c.isLt
  omega

theorem eq_wrapRow_iff {oy k : Nat} (hk : k < 32) (r : Fin 32) : r = wrapRow (oy + k) ↔ rowsBelow oy r = k := by
  simp only [Fin.ext_iff, wrapRow, Fin.val_ofNat, rowsBelow]
  have := r.isLt
  omega

theorem colsRight_wrapCol {ox j : Nat} (hj : j < 64) : colsRight ox (wrapCol (ox + j)) = j :=
  (eq_wrapCol_iff hj _).mp rfl

/-- The first `m` pixels of a sprite row: each is XORed into its place, and the flag records a lit
pixel that met a sprite bit. -/
theorem foldl_drawPixel (ox oy k : Nat) (b : Byte) (p : Framebuffer × Bool) (m : Nat) (hm : m ≤ 8) :
    (∀ r c, Framebuffer.pixel ((List.range m).foldl (drawPixel ox oy k b) p).1 r c =
      (Framebuffer.pixel p.1 r c ^^
        (decide (r = wrapRow (oy + k)) && decide (colsRight ox c < m) && b.getLsbD (7 - colsRight ox c)))) ∧
    (((List.range m).foldl (drawPixel ox oy k b) p).2 = true ↔
      p.2 = true ∨ ∃ c, colsRight ox c < m ∧ b.getLsbD (7 - colsRight ox c) = true ∧
        Framebuffer.pixel p.1 (wrapRow (oy + k)) c = true) := by
  induction m with
  | zero => simp
  | succ m ih =>
    obtain ⟨ihp, ihf⟩ := ih (by omega)
    rw [List.range_succ, List.foldl_append, List.foldl_cons, List.foldl_nil]
    have hcol := colsRight_wrapCol (ox := ox) (show m < 64 by omega)
    refine ⟨fun r c => ?_, ?_⟩
    · simp only [drawPixel, Framebuffer.pixel_setPixel, ihp, eq_wrapCol_iff (show m < 64 by omega)]
      by_cases hr : r = wrapRow (oy + k)
      · rcases Nat.lt_trichotomy (colsRight ox c) m with h | h | h
        · simp [hr, h, show colsRight ox c ≠ m by omega, show colsRight ox c < m + 1 by omega]
        · simp [hr, hcol, (eq_wrapCol_iff (show m < 64 by omega) c).mpr h]
        · simp [hr, show ¬ colsRight ox c < m by omega, show colsRight ox c ≠ m by omega,
            show ¬ colsRight ox c < m + 1 by omega]
      · simp [hr]
    · simp only [drawPixel, Bool.or_eq_true, Bool.and_eq_true, ihf, ihp]
      constructor
      · rintro ((h | ⟨c, hc, hb, hp⟩) | ⟨hb, hp⟩)
        · exact .inl h
        · exact .inr ⟨c, by omega, hb, hp⟩
        · refine .inr ⟨wrapCol (ox + m), by omega, by rwa [hcol], ?_⟩
          simpa [hcol] using hp
      · rintro (h | ⟨c, hc, hb, hp⟩)
        · exact .inl (.inl h)
        · rcases Nat.lt_or_ge (colsRight ox c) m with h | h
          · exact .inl (.inr ⟨c, h, hb, hp⟩)
          · have he : colsRight ox c = m := by omega
            obtain rfl := (eq_wrapCol_iff (show m < 64 by omega) c).mpr he
            rw [hcol] at hb
            exact .inr ⟨hb, by simpa [hcol] using hp⟩

/-- The bit of the sprite rows `bs`, the first of them being row `k`, that lands on a pixel. -/
def landingBit (ox oy k : Nat) (bs : List Byte) (r : Fin 32) (c : Fin 64) : Bool :=
  decide (k ≤ rowsBelow oy r) && decide (colsRight ox c < 8) &&
    ((bs[rowsBelow oy r - k]?).getD 0).getLsbD (7 - colsRight ox c)

/-- All the rows of a sprite from row `k` on: every pixel is XORed with the bit that lands on it, and
the flag records whether any of them was lit and met a 1. -/
theorem drawRows_spec (ox oy : Nat) (bs : List Byte) : ∀ (k : Nat) (p : Framebuffer × Bool),
    k + bs.length ≤ 32 →
    (∀ r c, Framebuffer.pixel (drawRows ox oy k bs p).1 r c =
      (Framebuffer.pixel p.1 r c ^^ landingBit ox oy k bs r c)) ∧
    ((drawRows ox oy k bs p).2 = true ↔
      p.2 = true ∨ ∃ r c, landingBit ox oy k bs r c = true ∧ Framebuffer.pixel p.1 r c = true) := by
  induction bs with
  | nil =>
    intro k p _
    simp [drawRows, landingBit]
  | cons b bs ih =>
    intro k p hk
    simp only [List.length_cons] at hk
    obtain ⟨hp, hf⟩ := ih (k + 1) (drawRow ox oy k b p) (by omega)
    obtain ⟨rp, rf⟩ := foldl_drawPixel ox oy k b p 8 (le_refl 8)
    have hk32 : k < 32 := by omega
    -- the bit of the whole sprite is that of its first row, or that of the rest
    have hbit : ∀ r c, landingBit ox oy k (b :: bs) r c =
        if r = wrapRow (oy + k) then decide (colsRight ox c < 8) && b.getLsbD (7 - colsRight ox c)
        else landingBit ox oy (k + 1) bs r c := by
      intro r c
      simp only [landingBit, eq_wrapRow_iff hk32]
      rcases Nat.lt_trichotomy (rowsBelow oy r) k with h | h | h
      · simp [show ¬ k ≤ rowsBelow oy r by omega, show rowsBelow oy r ≠ k by omega,
          show ¬ k + 1 ≤ rowsBelow oy r by omega]
      · simp [h]
      · obtain ⟨d, hd⟩ : ∃ d, rowsBelow oy r = k + 1 + d := ⟨rowsBelow oy r - (k + 1), by omega⟩
        simp [hd, show k + 1 + d - k = d + 1 by omega, show k + 1 + d ≠ k by omega,
          show k ≤ k + 1 + d by omega]
    have hrest : ∀ r c, r = wrapRow (oy + k) → landingBit ox oy (k + 1) bs r c = false := by
      intro r c hr
      simp [landingBit, (eq_wrapRow_iff hk32 r).mp hr]
    refine ⟨fun r c => ?_, ?_⟩
    · rw [show drawRows ox oy k (b :: bs) p = drawRows ox oy (k + 1) bs (drawRow ox oy k b p) from rfl,
        hp, drawRow, rp, hbit]
      by_cases hr : r = wrapRow (oy + k)
      · simp [hr, hrest _ c rfl]
      · simp [hr]
    · rw [show drawRows ox oy k (b :: bs) p = drawRows ox oy (k + 1) bs (drawRow ox oy k b p) from rfl, hf]
      simp only [drawRow, rf, rp]
      constructor
      · rintro ((h | ⟨c, hc, hb, hl⟩) | ⟨r, c, hb, hl⟩)
        · exact .inl h
        · exact .inr ⟨wrapRow (oy + k), c, by simp [hbit, hc, hb], hl⟩
        · have hr : r ≠ wrapRow (oy + k) := fun hr => by simp [hrest r c hr] at hb
          exact .inr ⟨r, c, by simp [hbit, hr, hb], by simpa [hr] using hl⟩
      · rintro (h | ⟨r, c, hb, hl⟩)
        · exact .inl (.inl h)
        · by_cases hr : r = wrapRow (oy + k)
          · subst hr
            simp only [hbit, if_true, Bool.and_eq_true, decide_eq_true_eq] at hb
            exact .inl (.inr ⟨c, hb.1, hb.2, hl⟩)
          · rw [hbit, if_neg hr] at hb
            exact .inr ⟨r, c, hb, by simpa [hr] using hl⟩

/-- A whole sprite. -/
theorem drawSprite_spec (ox oy : Nat) (bs : List Byte) (fb : Framebuffer) (h : bs.length ≤ 32) :
    (∀ r c, Framebuffer.pixel (drawSprite ox oy bs fb).1 r c =
      (Framebuffer.pixel fb r c ^^ landingBit ox oy 0 bs r c)) ∧
    ((drawSprite ox oy bs fb).2 = true ↔
      ∃ r c, landingBit ox oy 0 bs r c = true ∧ Framebuffer.pixel fb r c = true) := by
  simpa [drawSprite] using drawRows_spec ox oy bs 0 (fb, false) (by omega)

end Sys2Proof.Machine
end

