-- ==== Sys2Proof/Laws/Exec.lean ====
section
/-! SUPPORT. All that each of the instructions with more than one way to end can answer: the eight that can fault
(60_exceptions.md R141) and the one that can be held (45_keypad.md R133). The other instructions are each one
equation, by unfolding. -/

namespace Sys2Proof.Machine

theorem exec_ret_cases (s : State) :
    (s.sp.val = 0 ∧ exec .ret s = raise .stackUnderflow s.advance) ∨
    (∃ h : 0 < s.sp.val, exec .ret s =
      complete { s with
        sp := ⟨s.sp.val - 1, by have := s.sp.isLt; omega⟩
        pc := s.stack[s.sp.val - 1]'(by have := s.sp.isLt; omega) }) := by
  rcases s.advance.pop_cases with ⟨h, hp⟩ | ⟨h, hp⟩
  · exact .inl ⟨h, by simp only [exec, execRet, hp]⟩
  · exact .inr ⟨h, by simp only [exec, execRet, hp]; rfl⟩

theorem exec_callAddr_cases (nnn : Addr) (s : State) :
    (∃ h : s.sp.val < 16, exec (.callAddr nnn) s =
      complete { s with
        stack := s.stack.set s.sp.val (s.pc + 2) h
        sp := ⟨s.sp.val + 1, by omega⟩
        pc := addrWord nnn }) ∨
    (s.sp.val = 16 ∧ exec (.callAddr nnn) s = raise .stackOverflow s.advance) := by
  rcases s.advance.push_cases s.advance.pc with ⟨h, hp⟩ | ⟨h, hp⟩
  · exact .inl ⟨h, by simp only [exec, execCallAddr, hp]; rfl⟩
  · exact .inr ⟨h, by simp only [exec, execCallAddr, hp]⟩

theorem exec_ldBVx_cases (x : Reg) (s : State) :
    (s.i.toNat + 2 ≤ 4095 ∧
      exec (.ldBVx x) s = complete (s.advance.writeBytes s.i.toNat (bcdDigits (s.reg x)))) ∨
    (4095 < s.i.toNat + 2 ∧ exec (.ldBVx x) s = raise (.oobMemWrite s.i) s.advance) := by
  have hw : s.advance.memWrite s.base (bcdDigits (s.reg x)) =
      if s.i.toNat + 2 ≤ 4095 then some (s.advance.writeBytes s.i.toNat (bcdDigits (s.reg x))) else none := by
    rw [State.memWrite_eq]
    simp only [bcdDigits, State.base, List.length_cons, List.length_nil]
    congr 1
    simp only [eq_iff_iff]
    omega
  by_cases h : s.i.toNat + 2 ≤ 4095
  · exact .inl ⟨h, by simp only [exec, execLdBVx, hw, if_pos h]⟩
  · exact .inr ⟨by omega, by simp only [exec, execLdBVx, hw, if_neg h]⟩

theorem exec_ldMemVx_cases (x : Reg) (s : State) :
    (s.i.toNat + x.toNat ≤ 4095 ∧
      exec (.ldMemVx x) s = complete (s.advance.writeBytes s.i.toNat (s.regsUpTo x))) ∨
    (4095 < s.i.toNat + x.toNat ∧ exec (.ldMemVx x) s = raise (.oobMemWrite s.i) s.advance) := by
  have hw : s.advance.memWrite s.base (s.regsUpTo x) =
      if s.i.toNat + x.toNat ≤ 4095 then some (s.advance.writeBytes s.i.toNat (s.regsUpTo x)) else none := by
    rw [State.memWrite_eq]
    simp only [State.length_regsUpTo, State.base]
    congr 1
    simp only [eq_iff_iff]
    omega
  by_cases h : s.i.toNat + x.toNat ≤ 4095
  · exact .inl ⟨h, by simp only [exec, execLdMemVx, hw, if_pos h]⟩
  · exact .inr ⟨by omega, by simp only [exec, execLdMemVx, hw, if_neg h]⟩

theorem exec_ldVxMem_cases (x : Reg) (s : State) :
    (s.i.toNat + x.toNat ≤ 4095 ∧ exec (.ldVxMem x) s =
      complete (s.advance.setRegs 0 ((List.range (x.toNat + 1)).map fun k => s.readByte (s.i.toNat + k)))) ∨
    (4095 < s.i.toNat + x.toNat ∧ exec (.ldVxMem x) s = raise (.oobMemRead s.i) s.advance) := by
  have hw : s.memRead s.base (x.toNat + 1) = if s.i.toNat + x.toNat ≤ 4095 then
      some ((List.range (x.toNat + 1)).map fun k => s.readByte (s.i.toNat + k)) else none := by
    rw [State.memRead_eq]
    simp only [State.base]
    congr 1
    simp only [eq_iff_iff]
    omega
  by_cases h : s.i.toNat + x.toNat ≤ 4095
  · exact .inl ⟨h, by simp only [exec, execLdVxMem, hw, if_pos h]⟩
  · exact .inr ⟨by omega, by simp only [exec, execLdVxMem, hw, if_neg h]⟩

theorem exec_drwVxVyN_cases (x y : Reg) (n : Nibble) (s : State) :
    ((n.toNat = 0 ∨ s.i.toNat + n.toNat - 1 ≤ 4095) ∧
      ∃ p, p = drawSprite ((s.reg x).toNat % 64) ((s.reg y).toNat % 32)
          ((List.range n.toNat).map fun k => s.readByte (s.i.toNat + k)) s.fb ∧
        exec (.drwVxVyN x y n) s = complete (State.emitDisplay { s.advance.setFlag p.2 with fb := p.1 })) ∨
    (0 < n.toNat ∧ 4095 < s.i.toNat + n.toNat - 1 ∧
      exec (.drwVxVyN x y n) s = raise (.oobMemRead s.i) s.advance) := by
  have hw : s.memRead s.base n.toNat = if n.toNat = 0 ∨ s.i.toNat + n.toNat - 1 ≤ 4095 then
      some ((List.range n.toNat).map fun k => s.readByte (s.i.toNat + k)) else none := by
    rw [State.memRead_eq]
    simp only [State.base]
    congr 1
    simp only [eq_iff_iff]
    omega
  by_cases h : n.toNat = 0 ∨ s.i.toNat + n.toNat - 1 ≤ 4095
  · exact .inl ⟨h, _, rfl, by simp only [exec, execDrwVxVyN, hw, if_pos h]⟩
  · exact .inr ⟨by omega, by omega, by simp only [exec, execDrwVxVyN, hw, if_neg h]⟩

theorem exec_skpVx_cases (x : Reg) (s : State) :
    (15 < (s.reg x).toNat ∧ exec (.skpVx x) s = raise (.keyRange (s.reg x)) s.advance) ∨
    ((s.reg x).toNat ≤ 15 ∧ exec (.skpVx x) s =
      complete (s.advance.skipIf (s.isKeyDown ((s.reg x).setWidth 4))).renewHost) := by
  rcases keyOfByte_cases (s.reg x) with ⟨h, hk⟩ | ⟨h, hk⟩
  · exact .inl ⟨h, by simp only [exec, execSkpVx, hk]⟩
  · exact .inr ⟨h, by simp only [exec, execSkpVx, hk]⟩

theorem exec_sknpVx_cases (x : Reg) (s : State) :
    (15 < (s.reg x).toNat ∧ exec (.sknpVx x) s = raise (.keyRange (s.reg x)) s.advance) ∨
    ((s.reg x).toNat ≤ 15 ∧ exec (.sknpVx x) s =
      complete (s.advance.skipIf (!s.isKeyDown ((s.reg x).setWidth 4))).renewHost) := by
  rcases keyOfByte_cases (s.reg x) with ⟨h, hk⟩ | ⟨h, hk⟩
  · exact .inl ⟨h, by simp only [exec, execSknpVx, hk]⟩
  · exact .inr ⟨h, by simp only [exec, execSknpVx, hk]⟩

theorem exec_ldVxK_cases (x : Reg) (s : State) :
    (s.host.pressed = none ∧ exec (.ldVxK x) s = .next s.renewHost) ∨
    (∃ k, s.host.pressed = some k ∧
      exec (.ldVxK x) s = complete (s.advance.setReg x (keyByte k)).renewHost) := by
  rcases h : s.host.pressed with _ | k
  · exact .inl ⟨rfl, by simp only [exec, execLdVxK, h]⟩
  · exact .inr ⟨k, rfl, by simp only [exec, execLdVxK, h]⟩

end Sys2Proof.Machine
end

