-- ==== Sys2Proof/Laws/Fetch.lean ====
section
/-! SUPPORT. Fetching, and placing an instruction for the next step. -/

namespace Sys2Proof.Machine

theorem wordOfBytes_bytesOfWord (w : Word) :
    wordOfBytes (w.extractLsb' 8 8) (w.extractLsb' 0 8) = w := by
  apply BitVec.eq_of_toNat_eq
  have := w.isLt
  simp only [wordOfBytes, BitVec.toNat_append]
  rw [← Nat.shiftLeft_add_eq_or_of_lt (w.extractLsb' 0 8).isLt, Nat.shiftLeft_eq]
  simp [Nat.shiftRight_eq_div_pow]
  omega

theorem State.readyToFetch_pc_le (s : State) : s.readyToFetch.pc.toNat + 2 ≤ 4096 := by
  simp only [State.readyToFetch, Config.memSize]
  split_ifs with h
  · exact h
  · decide

/-- What the next step fetches of a placed instruction. -/
theorem State.fetch_withFetchWord (s : State) (nbits w : Nat) :
    (s.withFetchWord nbits w).fetch = some (BitVec.ofNat 16 (w % 2 ^ nbits)) := by
  have hpc := s.readyToFetch_pc_le
  rw [State.fetch_eq]
  simp only [State.withFetchWord, State.placeAtPc, State.writeBytes_pc]
  rw [if_pos (by omega)]
  simp only [State.readByte_writeBytes, tableBytes, bytesOfWord]
  simp [wordOfBytes_bytesOfWord]

theorem State.status_withFetchWord (s : State) (nbits w : Nat) :
    (s.withFetchWord nbits w).status = .running := by
  simp [State.withFetchWord, State.placeAtPc, State.readyToFetch]

/-- All a step of a running core can answer (40_cycle_and_system.md R70). -/
theorem step_running {s : State} (h : s.status = .running) :
    (s.fetch = none ∧ step s = fetchFault s) ∨
    (∃ w, s.fetch = some w ∧ decodeWord w = none ∧ step s = opcodeFault w s) ∨
    (∃ w i, s.fetch = some w ∧ decodeWord w = some i ∧ step s = exec i s) := by
  unfold step
  rw [h]
  rcases hf : s.fetch with _ | w
  · exact .inl ⟨rfl, rfl⟩
  · rcases hd : decodeWord w with _ | i
    · exact .inr (.inl ⟨w, rfl, hd, by simp only [hd]⟩)
    · exact .inr (.inr ⟨w, i, rfl, hd, by simp only [hd]⟩)

end Sys2Proof.Machine
end

