-- ==== Sys2Proof/Laws/PerInstr.lean ====
section
/-! SUPPORT. For each instruction: its encoded word selects a row of the opcode map, and that row builds the
instruction back from the word (30_encoding.md R52, R55). -/

namespace Sys2Proof

/-- The word `w` selects a row of the opcode map that builds `i` from it. -/
def SelectsRow (w : Word) (i : Instr) : Prop :=
  ∃ r ∈ opcodeMap, rowMatches w r = true ∧ r.build w = i

theorem mem_opcodeMap (k : Nat) {r : Row} (h : opcodeMap[k]? = some r) : r ∈ opcodeMap :=
  List.mem_of_getElem? h

/-! ## One lemma per format -/

theorem selectsRow_fix {bits : Word} {i : Instr} (h : rowFix bits i ∈ opcodeMap) : SelectsRow bits i :=
  ⟨_, h, by rw [rowMatches_rowFix]; exact beq_self_eq_true bits, rfl⟩

theorem selectsRow_addr {op : Nibble} {f : Addr → Instr} (h : rowAddr (wordXyn op 0 0 0) f ∈ opcodeMap)
    (nnn : Addr) : SelectsRow (wordAddr op nnn) (f nnn) := by
  refine ⟨_, h, ?_, congrArg f (fieldNnn_wordAddr op nnn)⟩
  rw [wordAddr_eq, rowMatches_rowAddr]
  exact beq_self_eq_true op

theorem selectsRow_xkk {op : Nibble} {f : Reg → Byte → Instr} (h : rowXkk (wordXyn op 0 0 0) f ∈ opcodeMap)
    (x : Reg) (kk : Byte) : SelectsRow (wordXkk op x kk) (f x kk) := by
  refine ⟨_, h, ?_, by simp [rowXkk]⟩
  rw [wordXkk_eq, rowMatches_rowXkk]
  exact beq_self_eq_true op

theorem selectsRow_xyn {op : Nibble} {f : Reg → Reg → Nibble → Instr}
    (h : rowXyn (wordXyn op 0 0 0) f ∈ opcodeMap) (x y : Reg) (n : Nibble) :
    SelectsRow (wordXyn op x y n) (f x y n) :=
  ⟨_, h, by rw [rowMatches_rowXyn]; exact beq_self_eq_true op, by simp [rowXyn]⟩

theorem selectsRow_xy {op n : Nibble} {f : Reg → Reg → Instr} (h : rowXy (wordXyn op 0 0 n) f ∈ opcodeMap)
    (x y : Reg) : SelectsRow (wordXyn op x y n) (f x y) :=
  ⟨_, h, by rw [rowMatches_rowXy]; simp, by simp [rowXy]⟩

theorem selectsRow_x {op : Nibble} {kk : Byte} {f : Reg → Instr}
    (h : rowX (wordXyn op 0 (kk.extractLsb' 4 4) (kk.extractLsb' 0 4)) f ∈ opcodeMap) (x : Reg) :
    SelectsRow (wordXkk op x kk) (f x) :=
  ⟨_, h, by rw [wordXkk_eq, rowMatches_rowX]; simp, by simp [rowX]⟩

/-- Every instruction's encoding selects a row that builds it back. -/
def Laws.EncodingSelectsRow.Statement (i : Instr) : Prop := SelectsRow (encode i) i

/-! ## One lemma per instruction -/

theorem Laws.EncodingSelectsRow.halt : Laws.EncodingSelectsRow.Statement .halt :=
  selectsRow_fix (i := .halt) (mem_opcodeMap 0 rfl)

theorem Laws.EncodingSelectsRow.cls : Laws.EncodingSelectsRow.Statement .cls :=
  selectsRow_fix (i := .cls) (mem_opcodeMap 1 rfl)

theorem Laws.EncodingSelectsRow.ret : Laws.EncodingSelectsRow.Statement .ret :=
  selectsRow_fix (i := .ret) (mem_opcodeMap 2 rfl)

theorem Laws.EncodingSelectsRow.jpAddr (nnn : Addr) : Laws.EncodingSelectsRow.Statement (.jpAddr nnn) :=
  selectsRow_addr (op := 0x1) (f := .jpAddr) (mem_opcodeMap 3 rfl) nnn

theorem Laws.EncodingSelectsRow.callAddr (nnn : Addr) : Laws.EncodingSelectsRow.Statement (.callAddr nnn) :=
  selectsRow_addr (op := 0x2) (f := .callAddr) (mem_opcodeMap 4 rfl) nnn

theorem Laws.EncodingSelectsRow.seVxKk (x : Reg) (kk : Byte) : Laws.EncodingSelectsRow.Statement (.seVxKk x kk) :=
  selectsRow_xkk (op := 0x3) (f := .seVxKk) (mem_opcodeMap 5 rfl) x kk

theorem Laws.EncodingSelectsRow.sneVxKk (x : Reg) (kk : Byte) : Laws.EncodingSelectsRow.Statement (.sneVxKk x kk) :=
  selectsRow_xkk (op := 0x4) (f := .sneVxKk) (mem_opcodeMap 6 rfl) x kk

theorem Laws.EncodingSelectsRow.seVxVy (x y : Reg) : Laws.EncodingSelectsRow.Statement (.seVxVy x y) :=
  selectsRow_xy (op := 0x5) (n := 0x0) (f := .seVxVy) (mem_opcodeMap 7 rfl) x y

theorem Laws.EncodingSelectsRow.ldVxKk (x : Reg) (kk : Byte) : Laws.EncodingSelectsRow.Statement (.ldVxKk x kk) :=
  selectsRow_xkk (op := 0x6) (f := .ldVxKk) (mem_opcodeMap 8 rfl) x kk

theorem Laws.EncodingSelectsRow.addVxKk (x : Reg) (kk : Byte) : Laws.EncodingSelectsRow.Statement (.addVxKk x kk) :=
  selectsRow_xkk (op := 0x7) (f := .addVxKk) (mem_opcodeMap 9 rfl) x kk

theorem Laws.EncodingSelectsRow.ldVxVy (x y : Reg) : Laws.EncodingSelectsRow.Statement (.ldVxVy x y) :=
  selectsRow_xy (op := 0x8) (n := 0x0) (f := .ldVxVy) (mem_opcodeMap 10 rfl) x y

theorem Laws.EncodingSelectsRow.orVxVy (x y : Reg) : Laws.EncodingSelectsRow.Statement (.orVxVy x y) :=
  selectsRow_xy (op := 0x8) (n := 0x1) (f := .orVxVy) (mem_opcodeMap 11 rfl) x y

theorem Laws.EncodingSelectsRow.andVxVy (x y : Reg) : Laws.EncodingSelectsRow.Statement (.andVxVy x y) :=
  selectsRow_xy (op := 0x8) (n := 0x2) (f := .andVxVy) (mem_opcodeMap 12 rfl) x y

theorem Laws.EncodingSelectsRow.xorVxVy (x y : Reg) : Laws.EncodingSelectsRow.Statement (.xorVxVy x y) :=
  selectsRow_xy (op := 0x8) (n := 0x3) (f := .xorVxVy) (mem_opcodeMap 13 rfl) x y

theorem Laws.EncodingSelectsRow.addVxVy (x y : Reg) : Laws.EncodingSelectsRow.Statement (.addVxVy x y) :=
  selectsRow_xy (op := 0x8) (n := 0x4) (f := .addVxVy) (mem_opcodeMap 14 rfl) x y

theorem Laws.EncodingSelectsRow.subVxVy (x y : Reg) : Laws.EncodingSelectsRow.Statement (.subVxVy x y) :=
  selectsRow_xy (op := 0x8) (n := 0x5) (f := .subVxVy) (mem_opcodeMap 15 rfl) x y

theorem Laws.EncodingSelectsRow.shrVx (x y : Reg) : Laws.EncodingSelectsRow.Statement (.shrVx x y) :=
  selectsRow_xy (op := 0x8) (n := 0x6) (f := .shrVx) (mem_opcodeMap 16 rfl) x y

theorem Laws.EncodingSelectsRow.subnVxVy (x y : Reg) : Laws.EncodingSelectsRow.Statement (.subnVxVy x y) :=
  selectsRow_xy (op := 0x8) (n := 0x7) (f := .subnVxVy) (mem_opcodeMap 17 rfl) x y

theorem Laws.EncodingSelectsRow.shlVx (x y : Reg) : Laws.EncodingSelectsRow.Statement (.shlVx x y) :=
  selectsRow_xy (op := 0x8) (n := 0xe) (f := .shlVx) (mem_opcodeMap 18 rfl) x y

theorem Laws.EncodingSelectsRow.sneVxVy (x y : Reg) : Laws.EncodingSelectsRow.Statement (.sneVxVy x y) :=
  selectsRow_xy (op := 0x9) (n := 0x0) (f := .sneVxVy) (mem_opcodeMap 19 rfl) x y

theorem Laws.EncodingSelectsRow.ldIAddr (nnn : Addr) : Laws.EncodingSelectsRow.Statement (.ldIAddr nnn) :=
  selectsRow_addr (op := 0xa) (f := .ldIAddr) (mem_opcodeMap 20 rfl) nnn

theorem Laws.EncodingSelectsRow.jpV0Addr (nnn : Addr) : Laws.EncodingSelectsRow.Statement (.jpV0Addr nnn) :=
  selectsRow_addr (op := 0xb) (f := .jpV0Addr) (mem_opcodeMap 21 rfl) nnn

theorem Laws.EncodingSelectsRow.rndVxKk (x : Reg) (kk : Byte) : Laws.EncodingSelectsRow.Statement (.rndVxKk x kk) :=
  selectsRow_xkk (op := 0xc) (f := .rndVxKk) (mem_opcodeMap 22 rfl) x kk

theorem Laws.EncodingSelectsRow.drwVxVyN (x y : Reg) (n : Nibble) :
    Laws.EncodingSelectsRow.Statement (.drwVxVyN x y n) :=
  selectsRow_xyn (op := 0xd) (f := .drwVxVyN) (mem_opcodeMap 23 rfl) x y n

theorem Laws.EncodingSelectsRow.skpVx (x : Reg) : Laws.EncodingSelectsRow.Statement (.skpVx x) :=
  selectsRow_x (op := 0xe) (kk := 0x9e) (f := .skpVx) (mem_opcodeMap 24 rfl) x

theorem Laws.EncodingSelectsRow.sknpVx (x : Reg) : Laws.EncodingSelectsRow.Statement (.sknpVx x) :=
  selectsRow_x (op := 0xe) (kk := 0xa1) (f := .sknpVx) (mem_opcodeMap 25 rfl) x

theorem Laws.EncodingSelectsRow.ldVxDt (x : Reg) : Laws.EncodingSelectsRow.Statement (.ldVxDt x) :=
  selectsRow_x (op := 0xf) (kk := 0x7) (f := .ldVxDt) (mem_opcodeMap 26 rfl) x

theorem Laws.EncodingSelectsRow.ldVxK (x : Reg) : Laws.EncodingSelectsRow.Statement (.ldVxK x) :=
  selectsRow_x (op := 0xf) (kk := 0xa) (f := .ldVxK) (mem_opcodeMap 27 rfl) x

theorem Laws.EncodingSelectsRow.ldDtVx (x : Reg) : Laws.EncodingSelectsRow.Statement (.ldDtVx x) :=
  selectsRow_x (op := 0xf) (kk := 0x15) (f := .ldDtVx) (mem_opcodeMap 28 rfl) x

theorem Laws.EncodingSelectsRow.ldStVx (x : Reg) : Laws.EncodingSelectsRow.Statement (.ldStVx x) :=
  selectsRow_x (op := 0xf) (kk := 0x18) (f := .ldStVx) (mem_opcodeMap 29 rfl) x

theorem Laws.EncodingSelectsRow.addIVx (x : Reg) : Laws.EncodingSelectsRow.Statement (.addIVx x) :=
  selectsRow_x (op := 0xf) (kk := 0x1e) (f := .addIVx) (mem_opcodeMap 30 rfl) x

theorem Laws.EncodingSelectsRow.ldFVx (x : Reg) : Laws.EncodingSelectsRow.Statement (.ldFVx x) :=
  selectsRow_x (op := 0xf) (kk := 0x29) (f := .ldFVx) (mem_opcodeMap 31 rfl) x

theorem Laws.EncodingSelectsRow.ldBVx (x : Reg) : Laws.EncodingSelectsRow.Statement (.ldBVx x) :=
  selectsRow_x (op := 0xf) (kk := 0x33) (f := .ldBVx) (mem_opcodeMap 32 rfl) x

theorem Laws.EncodingSelectsRow.ldMemVx (x : Reg) : Laws.EncodingSelectsRow.Statement (.ldMemVx x) :=
  selectsRow_x (op := 0xf) (kk := 0x55) (f := .ldMemVx) (mem_opcodeMap 33 rfl) x

theorem Laws.EncodingSelectsRow.ldVxMem (x : Reg) : Laws.EncodingSelectsRow.Statement (.ldVxMem x) :=
  selectsRow_x (op := 0xf) (kk := 0x65) (f := .ldVxMem) (mem_opcodeMap 34 rfl) x

end Sys2Proof
end

