-- ==== Sys2Proof/Tests/Slice0.lean ====
section
/-! SUPPORT. Tests of the model against the spec. Expected values come from the vectors of
95_test_vectors.md (its parts 1 and 2) or are worked out by hand from the rule a comment names, never
from the model. The last part shows a state and operands that meet the premises of each statement of
Certificates/Slice0/Obligations.lean, at the boundary values of its clauses. -/

namespace Sys2Proof.Machine.Tests

/-! ## Well-formedness (70_reset_and_hazards.md R162, 95_test_vectors.md 2.9) -/

/-- An image of `n` zero bytes. -/
def zeros (n : Nat) : List Byte := List.replicate n 0

theorem zeros_wellFormed (n : Nat) : imageWellFormed (zeros n) = decide (n ≤ 3584) :=
  congrArg (fun k => decide (k ≤ 3584)) List.length_replicate

theorem test_image_of_3584_bytes_accepted : imageWellFormed (zeros 3584) = true := zeros_wellFormed 3584

theorem test_image_of_3585_bytes_refused : imageWellFormed (zeros 3585) = false := zeros_wellFormed 3585

theorem test_boot_refuses_long_image (f : Font) : boot f (zeros 3585) = .refused .imageTooLong := by
  rw [boot, zeros_wellFormed]; rfl

/-! ## Decoding: words written out from 30_encoding.md R55, digit by digit -/

theorem test_decode_system :
    decodeWord 0x0000 = some .halt ∧ decodeWord 0x00E0 = some .cls ∧ decodeWord 0x00EE = some .ret := by
  decide

theorem test_decode_control :
    decodeWord 0x1ABC = some (.jpAddr 0xABC) ∧ decodeWord 0x2300 = some (.callAddr 0x300) ∧
    decodeWord 0x3A05 = some (.seVxKk 0xA 0x05) ∧ decodeWord 0x4A05 = some (.sneVxKk 0xA 0x05) ∧
    decodeWord 0x5120 = some (.seVxVy 1 2) ∧ decodeWord 0x9120 = some (.sneVxVy 1 2) ∧
    decodeWord 0xBFED = some (.jpV0Addr 0xFED) := by decide

theorem test_decode_load_and_logic :
    decodeWord 0x6A05 = some (.ldVxKk 0xA 5) ∧ decodeWord 0x7A03 = some (.addVxKk 0xA 3) ∧
    decodeWord 0x8120 = some (.ldVxVy 1 2) ∧ decodeWord 0x8121 = some (.orVxVy 1 2) ∧
    decodeWord 0x8122 = some (.andVxVy 1 2) ∧ decodeWord 0x8123 = some (.xorVxVy 1 2) ∧
    decodeWord 0xC10F = some (.rndVxKk 1 0x0F) := by decide

theorem test_decode_flag_arithmetic :
    decodeWord 0x8AB4 = some (.addVxVy 0xA 0xB) ∧ decodeWord 0x8125 = some (.subVxVy 1 2) ∧
    decodeWord 0x8AF6 = some (.shrVx 0xA 0xF) ∧ decodeWord 0x8127 = some (.subnVxVy 1 2) ∧
    decodeWord 0x812E = some (.shlVx 1 2) := by decide

theorem test_decode_memory_and_timers :
    decodeWord 0xA300 = some (.ldIAddr 0x300) ∧ decodeWord 0xF107 = some (.ldVxDt 1) ∧
    decodeWord 0xF015 = some (.ldDtVx 0) ∧ decodeWord 0xF018 = some (.ldStVx 0) ∧
    decodeWord 0xF21E = some (.addIVx 2) ∧ decodeWord 0xF029 = some (.ldFVx 0) ∧
    decodeWord 0xF033 = some (.ldBVx 0) ∧ decodeWord 0xF255 = some (.ldMemVx 2) ∧
    decodeWord 0xF165 = some (.ldVxMem 1) := by decide

theorem test_decode_display_and_keypad :
    decodeWord 0xD125 = some (.drwVxVyN 1 2 5) ∧ decodeWord 0xE19E = some (.skpVx 1) ∧
    decodeWord 0xE1A1 = some (.sknpVx 1) ∧ decodeWord 0xF30A = some (.ldVxK 3) := by decide

/-- 95_test_vectors.md 2.1, the illegal words. -/
theorem test_decode_refuses_illegal_words :
    ([0x00E1, 0x0123, 0x5121, 0x9121, 0x8128, 0x8129, 0x812A, 0x812B, 0x812C, 0x812D, 0x812F, 0xE19F,
      0xE1A0, 0xE000, 0xF100, 0xF108, 0xF175, 0xF1FF] : List Word).all (decodeWord · == none) = true := by
  decide

/-- 20_memory.md R34: 0x6A then 0x05 is the word 0x6A05, not 0x056A. -/
theorem test_decode_bytes_big_endian : decode [0x6A, 0x05, 0x99] = .ok (.ldVxKk 0xA 5, [0x99]) := by decide

theorem test_decode_refuses_one_byte : decode [0x6A] = .error .truncated := by decide

theorem test_table_word_of_shift : decodeTableWord 16 0x8AF6 = some (.shrVx 0xA 0xF) := by decide

/-! ## One step on a small state

`start` is reset with the host's answers fixed; each test presets the fields its vector gives. -/

def quietHost : HostAnswers := ⟨Vector.replicate 16 false, none, 0xA7⟩

def start : State := { State.resetWith Config.defaultFont with host := quietHost }

/-- The state after one step on the word `w`, `s` itself when there is none. -/
def after (w : Nat) (s : State) : State :=
  match step (s.withFetchWord 16 w) with
  | .next t => t
  | .fault _ => s
  | .refused _ => s

/-- `start` with `V1 = a`, `V2 = b`. -/
def withRegs (a b : Byte) : State := (start.setReg 1 a).setReg 2 b

/-- `start` with `V1 = a`, `VF = b`. -/
def withFlag (a b : Byte) : State := (start.setReg 1 a).setReg 0xF b

/-- `start` with `I = a`. -/
def withI (a : Word) : State := { start with i := a }

/-- `start` with `I = 0x300`, the byte `b` there, and `V1 = x`, `V2 = y`. -/
def withSprite (b x y : Byte) : State := (({ start with i := 0x300 } : State).writeByte 0x300 b).setReg 1 x |>.setReg 2 y

/-- `start` with the key `k` down. -/
def withKey (k : Key) (a : Byte) : State :=
  { start.setReg 1 a with
    host := { quietHost with keysDown := (Vector.replicate 16 false).set k.toNat true (by have := k.isLt; omega) } }

theorem test_halt : (after 0x0000 { start with dt := 3, st := 1 }).status = .halted ∧
    (after 0x0000 { start with dt := 3, st := 1 }).dt = 2 := by decide

theorem test_halt_at_top : (after 0x0000 { start with pc := 0xFFE }).pc = 0x1000 := by decide

theorem test_cls_blanks : (after 0x00E0 { start with fb := Vector.replicate 32 (Vector.replicate 64 true) }).fb
    = blankScreen := by decide

theorem test_cls_keeps_flag_and_emits_nothing : (after 0x00E0 (start.setReg 0xF 7)).reg 0xF = 7 ∧
    (after 0x00E0 start).display = [] := by decide

theorem test_ret : (after 0x00EE { start with sp := 1, stack := start.stack.set 0 0x302 }).pc = 0x302 ∧
    (after 0x00EE { start with sp := 1, stack := start.stack.set 0 0x302 }).sp = 0 := by decide

theorem test_ret_underflow : (after 0x00EE start).status = .faulted .stackUnderflow ∧
    (after 0x00EE start).pc = 0x202 := by decide

theorem test_jp : (after 0x1203 start).pc = 0x203 := by decide

theorem test_call_last_push : (after 0x2300 { start with sp := 15 }).stack[15] = 0x202 ∧
    (after 0x2300 { start with sp := 15 }).sp = 16 := by decide

theorem test_call_overflow : (after 0x2300 { start with sp := 16 }).status = .faulted .stackOverflow ∧
    (after 0x2300 { start with sp := 16 }).pc = 0x202 := by decide

theorem test_se_kk : (after 0x3A05 (start.setReg 0xA 5)).pc = 0x204 ∧
    (after 0x3A05 (start.setReg 0xA 6)).pc = 0x202 := by decide

theorem test_se_kk_off_the_top : (after 0x3000 { start with pc := 0xFFE }).pc = 0x1002 := by decide

theorem test_sne_kk : (after 0x4A05 (start.setReg 0xA 5)).pc = 0x202 ∧
    (after 0x4A05 (start.setReg 0xA 6)).pc = 0x204 := by decide

theorem test_se_vy : (after 0x5120 (withRegs 7 7)).pc = 0x204 ∧ (after 0x5120 (withRegs 7 8)).pc = 0x202 := by
  decide

theorem test_sne_vy : (after 0x9120 (withRegs 7 8)).pc = 0x204 ∧ (after 0x9120 (withRegs 7 7)).pc = 0x202 := by
  decide

theorem test_jp_v0_above_memory : (after 0xBFFF (start.setReg 0 0xFF)).pc = 0x10FE := by decide

theorem test_jp_v0 : (after 0xB300 (start.setReg 0 0x10)).pc = 0x310 := by decide

theorem test_ld_kk : (after 0x6FFF start).reg 0xF = 0xFF := by decide

theorem test_add_kk_wraps_without_flag : (after 0x7101 (withRegs 0xFF 0)).reg 1 = 0 ∧
    (after 0x7101 (withRegs 0xFF 0)).reg 0xF = 0 := by decide

theorem test_add_kk_into_vf : (after 0x7F01 (withFlag 0 0xFF)).reg 0xF = 0 := by decide

theorem test_ld_vy : (after 0x8120 (withRegs 0 0x5A)).reg 1 = 0x5A := by decide

theorem test_or : (after 0x8121 (withRegs 0xF0 0x0F)).reg 1 = 0xFF := by decide

theorem test_and : (after 0x8122 (withRegs 0xF3 0x3F)).reg 1 = 0x33 := by decide

theorem test_xor : (after 0x8123 (withRegs 0xFF 0x0F)).reg 1 = 0xF0 := by decide

theorem test_add : (after 0x8124 (withRegs 0xFF 0xFF)).reg 1 = 0xFE ∧
    (after 0x8124 (withRegs 0xFF 0xFF)).reg 0xF = 1 := by decide

/-- 0x81F4 and 0x8F14 (D7). -/
theorem test_add_vf : (after 0x81F4 (withFlag 5 7)).reg 1 = 0x0C ∧
    (after 0x8F14 (withFlag 200 100)).reg 0xF = 1 := by decide

theorem test_sub_strict : (after 0x8125 (withRegs 3 5)).reg 1 = 0xFE ∧
    (after 0x8125 (withRegs 7 7)).reg 0xF = 0 := by decide

/-- 0x81F5 and 0x8F15 (D7). -/
theorem test_sub_vf : (after 0x81F5 (withFlag 5 2)).reg 1 = 4 ∧
    (after 0x8F15 (withFlag 3 9)).reg 0xF = 0xFE := by decide

theorem test_shr : (after 0x8126 (withRegs 0x05 0xFF)).reg 1 = 0x02 ∧
    (after 0x8126 (withRegs 0x05 0xFF)).reg 0xF = 1 := by decide

theorem test_shr_vf : (after 0x8F06 (withFlag 0 0xFF)).reg 0xF = 0 := by decide

theorem test_subn : (after 0x8127 (withRegs 3 5)).reg 1 = 2 ∧
    (after 0x8127 (withRegs 3 5)).reg 0xF = 1 := by decide

/-- 0x81F7 and 0x8F17 (D7). -/
theorem test_subn_vf : (after 0x81F7 (withFlag 0 9)).reg 1 = 1 ∧
    (after 0x8F17 (withFlag 9 3)).reg 0xF = 8 := by decide

theorem test_shl : (after 0x810E (withRegs 0x81 0)).reg 1 = 0x02 ∧
    (after 0x810E (withRegs 0x81 0)).reg 0xF = 1 := by decide

theorem test_shl_vf : (after 0x8F0E (withFlag 0 0x80)).reg 0xF = 2 := by decide

theorem test_rnd : (after 0xC10F start).reg 1 = 0x07 := by decide

theorem test_ld_i : (after 0xAFFF start).i = 0xFFF := by decide

theorem test_add_i_wraps : (after 0xF21E ((withI 0xFFFF).setReg 2 2)).i = 1 := by decide

theorem test_add_i_above_memory : (after 0xF21E ((withI 0xFFF).setReg 2 1)).i = 0x1000 := by decide

theorem test_ld_f : (after 0xF029 (start.setReg 0 0xFF)).i = 1275 := by decide

theorem test_bcd : (after 0xF033 ((withI 0x300).setReg 0 234)).readByte 0x300 = 2 ∧
    (after 0xF033 ((withI 0xFFD).setReg 0 255)).readByte 0xFFF = 5 := by decide

theorem test_bcd_out_of_bounds : (after 0xF033 (withI 0xFFE)).status = .faulted (.oobMemWrite 0xFFE) := by decide

theorem test_store : (after 0xF255 { withI 0x300 with v := #v[1, 2, 3, 9, 0, 0, 0, 0, 0, 0, 0, 0, 0, 0, 0, 0] }).mem
    = [(0x200, 0xF2), (0x201, 0x55), (0x300, 1), (0x301, 2), (0x302, 3)] := by decide

theorem test_store_out_of_bounds : (after 0xFF55 (withI 0xFF1)).status = .faulted (.oobMemWrite 0xFF1) ∧
    (after 0xFF55 (withI 0xFF0)).status = .running := by decide

/-- The default font's first glyphs (U1). -/
theorem test_load : (after 0xFF65 start).v =
    #v[0xF0, 0x90, 0x90, 0x90, 0xF0, 0x20, 0x60, 0x20, 0x20, 0x70, 0xF0, 0x10, 0xF0, 0x80, 0xF0, 0xF0] := by
  decide

theorem test_load_out_of_bounds : (after 0xF065 (withI 0x1000)).status = .faulted (.oobMemRead 0x1000) := by
  decide

theorem test_ld_vx_dt : (after 0xF107 { start with dt := 4 }).reg 1 = 4 ∧
    (after 0xF107 { start with dt := 4 }).dt = 3 := by decide

theorem test_ld_dt : (after 0xF015 (start.setReg 0 5)).dt = 4 ∧ (after 0xF015 start).dt = 0 := by decide

theorem test_ld_st : (after 0xF018 (start.setReg 0 2)).st = 1 := by decide

/-- Origin (62,31): the sprite row 0xF0 wraps to columns 62, 63, 0 and 1. -/
theorem test_drw_wraps : (List.finRange 64).all (fun c =>
    Framebuffer.pixel (after 0xD121 (withSprite 0xF0 62 31)).fb 31 c ==
      (c == 62 || c == 63 || c == 0 || c == 1)) = true := by decide

/-- `n` = 0 at the top of memory draws nothing, resets `VF` and emits (D9). -/
theorem test_drw_no_rows : (after 0xD120 ((withI 0xFFF).setReg 0xF 7)).reg 0xF = 0 ∧
    (after 0xD120 ((withI 0xFFF).setReg 0xF 7)).display = [blankScreen] := by decide

theorem test_skp : (after 0xE19E (withKey 5 5)).pc = 0x204 ∧ (after 0xE19E (withKey 6 5)).pc = 0x202 := by
  decide

theorem test_skp_key_range : (after 0xE19E (withRegs 0x10 0)).status = .faulted (.keyRange 0x10) := by decide

theorem test_sknp : (after 0xE1A1 (withKey 5 5)).pc = 0x202 ∧ (after 0xE1A1 (withKey 6 5)).pc = 0x204 := by
  decide

theorem test_sknp_last_key : (after 0xE1A1 (withKey 15 15)).pc = 0x202 := by decide

theorem test_ld_k : (after 0xF30A { start with host := { quietHost with pressed := some 0xB } }).reg 3 = 0xB := by
  decide

theorem test_ld_k_held : (after 0xF30A { start with dt := 9 }).pc = 0x200 ∧
    (after 0xF30A { start with dt := 9 }).dt = 9 := by decide

/-! ## The step outside the instructions -/

theorem test_step_odd_pc : (after 0x6107 { start with pc := 0x201 }).reg 1 = 7 ∧
    (after 0x6107 { start with pc := 0x201 }).pc = 0x203 := by decide

theorem test_step_illegal_word : (after 0x0123 start).status = .faulted (.unrecognizedOpcode 0x0123) ∧
    (after 0x0123 start).pc = 0x202 := by decide

theorem test_step_fetch_at_0xFFF :
    step { start with pc := 0xFFF } = .next { start with pc := 0xFFF, status := .faulted (.oobFetch 0xFFF) } :=
  rfl

theorem test_step_empty_image_halts : ∃ t, step State.reset = .next t ∧ t.status = .halted ∧ t.pc = 0x202 :=
  ⟨_, rfl, rfl, rfl⟩

/-! ## Premises met

One theorem per statement with premises, each at the boundary values of the statement's clauses. -/

/-- `BootCopiesImage`. -/
theorem test_premises_boot : (zeros 3584).length ≤ 3584 ∧ 3583 < (zeros 3584).length ∧
    3584 < (zeros 3585).length := by
  simp only [zeros, List.length_replicate]; decide

/-- `EncodeOfDecode`. -/
theorem test_premises_encode_of_decode : decodeWord 0x8AF6 = some (.shrVx 0xA 0xF) := by decide

/-- `OpcodeMapRowsDisjoint`: 0x00E0 satisfies row 1, 0xFF65 the last row. -/
theorem test_premises_rows : rowMatches 0x00E0 (opcodeMap[1]'(by decide)) = true ∧
    rowMatches 0xFF65 (opcodeMap[34]'(by decide)) = true := by decide

/-- `IllegalWordsAreExactlyTheTable`: words of both kinds. -/
theorem test_premises_illegal_words : illegalWord 0x8128 = true ∧ illegalWord 0x8127 = false ∧
    illegalWord 0x812D = true ∧ illegalWord 0x812E = false ∧ illegalWord 0x812F = true := by decide

/-- `StepRunsDecodedInstruction`, at the last word of memory. -/
theorem test_premises_step_runs :
    let s := State.withFetchWord { start with pc := 0xFFE } 16 0x6A05
    s.status = .running ∧ s.pc.toNat + 1 ≤ 4095 ∧
      decodeWord (s.readByte s.pc.toNat ++ s.readByte (s.pc.toNat + 1)) = some (.ldVxKk 0xA 5) := by decide

/-- `IllegalWordFaults`, at the last word of memory. -/
theorem test_premises_illegal_word_faults :
    let s := State.withFetchWord { start with pc := 0xFFE } 16 0x5121
    s.status = .running ∧ s.pc.toNat + 1 ≤ 4095 ∧
      illegalWord (s.readByte s.pc.toNat ++ s.readByte (s.pc.toNat + 1)) = true := by decide

/-- `FetchOutOfBoundsFaults`, at the first `PC` that faults. -/
theorem test_premises_fetch_out_of_bounds :
    ({ start with pc := 0xFFF } : State).status = .running ∧
      4095 < ({ start with pc := 0xFFF } : State).pc.toNat + 1 := by decide

/-- `FaultChangesOnlyStatusAndPc`: a fetch fault and one of an instruction. -/
theorem test_premises_fault_changes_only :
    (∃ t, step { start with pc := 0xFFF } = .next t ∧ t.status = .faulted (.oobFetch 0xFFF)) ∧
    (∃ t, step (start.withFetchWord 16 0x00EE) = .next t ∧ t.status = .faulted .stackUnderflow) :=
  ⟨⟨_, rfl, rfl⟩, ⟨_, rfl, rfl⟩⟩

/-- `StoppedCoreTakesNoStep` and the second part of `RunEndsWhenStatusLeavesRunning`. -/
theorem test_premises_stopped : ({ start with status := .halted } : State).status = .halted ∧
    ({ start with status := .faulted .stackOverflow } : State).status = .faulted .stackOverflow ∧
    ({ start with status := .halted } : State).status ≠ .running := by decide

/-- The step of `RunEndsWhenStatusLeavesRunning`: one that goes on running. -/
theorem test_premises_run : ∃ t, step (start.withFetchWord 16 0x00E0) = .next t ∧ t.status = .running :=
  ⟨_, rfl, rfl⟩

/-- `RunningCoreAlwaysSteps`. -/
theorem test_premises_running : start.status = .running := by decide

/-- `OnlyHaltHalts`: a step that halts and one that does not. -/
theorem test_premises_only_halt_halts :
    (start.status = .running ∧ ∃ t, step start = .next t ∧ t.status = .halted) ∧
    ((start.withFetchWord 16 0x00E0).status = .running ∧
      ∃ t, step (start.withFetchWord 16 0x00E0) = .next t ∧ t.status = .running) :=
  ⟨⟨rfl, _, rfl, rfl⟩, ⟨rfl, _, rfl, rfl⟩⟩

/-- `PlacedInstructionRuns`. -/
theorem test_premises_placed : decodeTableWord 16 0xF30A = some (.ldVxK 3) := by decide

/-- `SkipsCompareValues` and `JumpsGoToTarget` have no premise; their `if`s are met both ways. -/
theorem test_premises_skips : (start.reg 1).toNat = (0 : Byte).toNat ∧ (start.reg 1).toNat ≠ (1 : Byte).toNat := by
  decide

/-- `CallPushesReturnAddress`: the emptiest and the fullest stack with room, and the full one. -/
theorem test_premises_call : start.sp.val < 16 ∧ ({ start with sp := 15 } : State).sp.val < 16 ∧
    ({ start with sp := 16 } : State).sp.val = 16 := by decide

/-- `ReturnPopsFrame`: one frame, sixteen frames, none. -/
theorem test_premises_ret : 0 < ({ start with sp := 1 } : State).sp.val ∧
    0 < ({ start with sp := 16 } : State).sp.val ∧ start.sp.val = 0 := by decide

/-- `ReturnUndoesCall`: the `RET` right after the `CALL`. -/
theorem test_premises_return_undoes_call :
    ({ start with sp := 15 } : State).sp.val < 16 ∧
    ∃ t, exec (.callAddr 0x310) { start with sp := 15 } = .next t ∧ StackKept t t :=
  ⟨by decide, _, rfl, rfl, rfl⟩

/-- `AddRegistersSetsCarry`: sums of 255 and 256, and `x` both kinds. -/
theorem test_premises_add : ((withRegs 0xFF 0).reg 1).toNat + ((withRegs 0xFF 0).reg 2).toNat = 255 ∧
    ((withRegs 0xFF 1).reg 1).toNat + ((withRegs 0xFF 1).reg 2).toNat = 256 ∧ (1 : Reg) ≠ vf := by decide

/-- `SubtractSetsStrictFlag`: `V1` = 5 less `VF` = 2, so `f` = 1 and `b` = 1; and less `V2` = 5, so `f` = 0
and `b` = 5. -/
theorem test_premises_sub :
    ((1 : Nat) = (if ((withFlag 5 2).reg 1).toNat > ((withFlag 5 2).reg vf).toNat then 1 else 0) ∧
      (1 : Nat) = (if vf = vf then 1 else ((withFlag 5 2).reg vf).toNat)) ∧
    ((0 : Nat) = (if ((withRegs 5 5).reg 1).toNat > ((withRegs 5 5).reg 2).toNat then 1 else 0) ∧
      (5 : Nat) = (if (2 : Reg) = vf then 0 else ((withRegs 5 5).reg 2).toNat)) := by decide

/-- `ReverseSubtractSetsStrictFlag`: `VF` = 9 less `V1` = 0, so `f` = 1 and `b` = 1; and `V2` = 5 less
`V1` = 5, so `f` = 0 and `b` = 5. -/
theorem test_premises_subn :
    ((1 : Nat) = (if ((withFlag 0 9).reg vf).toNat > ((withFlag 0 9).reg 1).toNat then 1 else 0) ∧
      (1 : Nat) = (if vf = vf then 1 else ((withFlag 0 9).reg vf).toNat)) ∧
    ((0 : Nat) = (if ((withRegs 5 5).reg 2).toNat > ((withRegs 5 5).reg 1).toNat then 1 else 0) ∧
      (5 : Nat) = (if (2 : Reg) = vf then 0 else ((withRegs 5 5).reg 2).toNat)) := by decide

/-- `BcdStoresThreeDigits`: the last `I` that stores and the first that faults. -/
theorem test_premises_bcd : (withI 0xFFD).i.toNat + 2 ≤ 4095 ∧ 4095 < (withI 0xFFE).i.toNat + 2 := by decide

/-- `StoreRegistersToMemory` and `LoadRegistersFromMemory`: the last `I` that goes through and the first
that faults, for the smallest and the largest `x`. -/
theorem test_premises_store_and_load :
    (withI 0xFFF).i.toNat + (0 : Reg).toNat ≤ 4095 ∧ 4095 < (withI 0x1000).i.toNat + (0 : Reg).toNat ∧
    (withI 0xFF0).i.toNat + (15 : Reg).toNat ≤ 4095 ∧ 4095 < (withI 0xFF1).i.toNat + (15 : Reg).toNat := by
  decide

/-- `MemoryPrimitives`: the last address of each range and the first beyond it. -/
theorem test_premises_memory : (1 ≤ 2 ∧ 4094 + 2 - 1 ≤ 4095) ∧ (1 ≤ 2 ∧ 4095 < 4095 + 2 - 1) ∧
    ({ start with pc := 0xFFE } : State).pc.toNat + 1 ≤ 4095 := by decide

/-- `StoreIsSeenByNextFetch`: `V0` and `V1` stored at 0x202 by the instruction at 0x200. -/
theorem test_premises_store_is_seen :
    (withI 0x202).i.toNat + (1 : Reg).toNat ≤ 4095 ∧
    ∃ t, exec (.ldMemVx 1) (withI 0x202) = .next t ∧ (1 : Reg).toNat = (0 : Reg).toNat + 1 ∧
      (1 : Reg).toNat ≤ (1 : Reg).toNat ∧ t.pc.toNat = (withI 0x202).i.toNat + (0 : Reg).toNat :=
  ⟨by decide, _, rfl, by decide⟩

/-- `DrawXorsSpriteAndFlagsCollision`: no rows with `I` at and above the top, fifteen rows ending at 4095,
and each premise of the flag. -/
theorem test_premises_draw :
    ((0 : Nibble).toNat = 0) ∧ (withI 0xFF1).i.toNat + (15 : Nibble).toNat - 1 ≤ 4095 ∧
    (spriteBit (withSprite 0x80 0 0) 1 2 1 0 0 = true ∧ Framebuffer.pixel (withSprite 0x80 0 0).fb 0 0 = false) ∧
    (spriteBit { withSprite 0x80 0 0 with fb := Vector.replicate 32 (Vector.replicate 64 true) } 1 2 1 0 0 = true ∧
      Framebuffer.pixel (Vector.replicate 32 (Vector.replicate 64 true)) 0 0 = true) := by decide

/-- `DrawTwiceRestoresFramebuffer`: the second draw right after the first. -/
theorem test_premises_draw_twice :
    (withSprite 0x80 5 5).i.toNat + (1 : Nibble).toNat - 1 ≤ 4095 ∧
    ∃ t, exec (.drwVxVyN 1 2 1) (withSprite 0x80 5 5) = .next t ∧
      t.reg 1 = (withSprite 0x80 5 5).reg 1 ∧ t.reg 2 = (withSprite 0x80 5 5).reg 2 :=
  ⟨by decide, _, rfl, rfl, rfl⟩

/-- `OnlyDrawEmitsDisplayEvents` and the other rules about every instruction: an instruction that
completes and one that faults. -/
theorem test_premises_every_instruction :
    (∃ t, exec (.drwVxVyN 1 2 1) start = .next t ∧ faultOf (.drwVxVyN 1 2 1) start = none) ∧
    (∃ t, exec .ret start = .next t ∧ faultOf .ret start = some .stackUnderflow) ∧
    writesFlag (.drwVxVyN 1 2 1) = true ∧ writesReg vf (.drwVxVyN 1 2 1) = false ∧
    writesReg 1 (.ldVxKk 2 0) = false ∧ writesFlag (.ldVxKk 2 0) = false ∧ writesTimer .ret = false :=
  ⟨⟨_, rfl, by decide⟩, ⟨_, rfl, by decide⟩, by decide⟩

/-- `OnlyNamedInstructionsTouchEachPart`: an instruction outside every list. -/
theorem test_premises_only_named : writesI (.ldVxKk 1 2) = false ∧ usesStack (.ldVxKk 1 2) = false ∧
    writesScreen (.ldVxKk 1 2) = false ∧ storesToMemory (.ldVxKk 1 2) = false ∧
    asksHost (.ldVxKk 1 2) = false := by decide

/-- `TimersTickOncePerCompletedInstruction`: a held key wait and a completed one. -/
theorem test_premises_timers : writesTimer (.ldVxK 3) = false ∧ faultOf (.ldVxK 3) start = none ∧
    start.host.pressed = none ∧
    (∃ t, exec (.ldVxK 3) start = .next t) ∧
    ({ start with host := { quietHost with pressed := some 0 } } : State).host.pressed ≠ none :=
  ⟨by decide, by decide, by decide, ⟨_, rfl⟩, by decide⟩

/-- `KeySkipsAskTheHost`: the last key and the first byte above it. -/
theorem test_premises_key_skips : ((withRegs 15 0).reg 1).toNat = (15 : Key).toNat ∧
    15 < ((withRegs 16 0).reg 1).toNat := by decide

/-- `KeyWaitCompletesOnKeyPress` and `KeyWaitHoldsWithoutKeyPress`. -/
theorem test_premises_key_wait :
    ({ start with host := { quietHost with pressed := some 15 } } : State).host.pressed = some 15 ∧
    start.host.pressed = none := by decide

/-- `SoundTimerIsNeverRead`, `StepKeepsMemoryCanonical` and `StepKeepsPcBounded`. -/
theorem test_premises_invariants :
    let s := ({ start with pc := 0xFFE } : State).withFetchWord 16 0xBFFF
    MemCanonical s ∧ PcBounded s ∧ ∃ t, step s = .next t :=
  ⟨by unfold MemCanonical; decide, by unfold PcBounded; decide, _, rfl⟩

end Sys2Proof.Machine.Tests
end

namespace Sys2Proof.Machine

/-! ## How an instruction ends (40_cycle_and_system.md R73, R75)

An instruction faults, is held, or completes. `effect` is the state a completing one leaves before the tick;
`exec_cases` ties it to `exec`, and later proofs go through `exec_next_cases` and the lemmas on `effect`. -/

/-- The step is held: `LD Vx,K` while the host reports no key press (45_keypad.md R133, D14). -/
def Held (i : Instr) (s : State) : Prop := (∃ x, i = .ldVxK x) ∧ s.host.pressed = none

/-- What an instruction that neither faults nor is held leaves, before the tick of R74. -/
def effect (i : Instr) (s : State) : State :=
  match i with
  | .halt => { s.advance with status := .halted }
  | .cls => { s.advance with fb := blankScreen }
  | .ret =>
    { s with
      sp := ⟨s.sp.val - 1, by have := s.sp.isLt; omega⟩
      pc := s.stack[s.sp.val - 1]'(by have := s.sp.isLt; omega) }
  | .jpAddr nnn => s.advance.jump (addrWord nnn)
  | .callAddr nnn =>
    { s with
      stack := s.stack.setIfInBounds s.sp.val (s.pc + 2)
      sp := Fin.ofNat 17 (s.sp.val + 1)
      pc := addrWord nnn }
  | .seVxKk x kk => s.advance.skipIf (s.reg x == kk)
  | .sneVxKk x kk => s.advance.skipIf (s.reg x != kk)
  | .seVxVy x y => s.advance.skipIf (s.reg x == s.reg y)
  | .ldVxKk x kk => s.advance.setReg x kk
  | .addVxKk x kk => s.advance.setReg x (s.reg x + kk)
  | .ldVxVy x y => s.advance.setReg x (s.reg y)
  | .orVxVy x y => s.advance.setReg x (s.reg x ||| s.reg y)
  | .andVxVy x y => s.advance.setReg x (s.reg x &&& s.reg y)
  | .xorVxVy x y => s.advance.setReg x (s.reg x ^^^ s.reg y)
  | .addVxVy x y => (s.advance.setReg x (s.reg x + s.reg y)).setFlag (carryFlag (s.reg x) (s.reg y))
  | .subVxVy x y =>
    let t := s.advance.setFlag (greaterFlag (s.reg x) (s.reg y))
    t.setReg x (t.reg x - t.reg y)
  | .shrVx x _ =>
    let t := s.advance.setFlag (lowBit (s.reg x))
    t.setReg x (t.reg x >>> 1)
  | .subnVxVy x y =>
    let t := s.advance.setFlag (greaterFlag (s.reg y) (s.reg x))
    t.setReg x (t.reg y - t.reg x)
  | .shlVx x _ =>
    let t := s.advance.setFlag (highBit (s.reg x))
    t.setReg x (t.reg x <<< 1)
  | .sneVxVy x y => s.advance.skipIf (s.reg x != s.reg y)
  | .ldIAddr nnn => { s.advance with i := addrWord nnn }
  | .jpV0Addr nnn => s.advance.jump (addrWord nnn + byteWord (s.reg 0))
  | .rndVxKk x kk => (s.advance.setReg x (s.host.random &&& kk)).renewHost
  | .drwVxVyN x y n =>
    let p := drawSprite ((s.reg x).toNat % 64) ((s.reg y).toNat % 32)
      ((List.range n.toNat).map fun k => s.readByte (s.i.toNat + k)) s.fb
    State.emitDisplay { s.advance.setFlag p.2 with fb := p.1 }
  | .skpVx x => (s.advance.skipIf (s.isKeyDown ((s.reg x).setWidth 4))).renewHost
  | .sknpVx x => (s.advance.skipIf (!s.isKeyDown ((s.reg x).setWidth 4))).renewHost
  | .ldVxDt x => s.advance.setReg x s.dt
  | .ldVxK x => (s.advance.setReg x (keyByte (s.host.pressed.getD 0))).renewHost
  | .ldDtVx x => { s.advance with dt := s.reg x }
  | .ldStVx x => { s.advance with st := s.reg x }
  | .addIVx x => { s.advance with i := s.i + byteWord (s.reg x) }
  | .ldFVx x => { s.advance with i := glyphAddress (s.reg x) }
  | .ldBVx x => s.advance.writeBytes s.i.toNat (bcdDigits (s.reg x))
  | .ldMemVx x => s.advance.writeBytes s.i.toNat (s.regsUpTo x)
  | .ldVxMem x =>
    s.advance.setRegs 0 ((List.range (x.toNat + 1)).map fun k => s.readByte (s.i.toNat + k))

theorem not_held_of_ne {i : Instr} {s : State} (h : ∀ x, i ≠ .ldVxK x) : ¬ Held i s :=
  fun ⟨⟨x, hx⟩, _⟩ => h x hx

/-- Below the limit of 16 frames the push of `effect` is the checked one. -/
theorem effect_callAddr {s : State} (nnn : Addr) (h : s.sp.val < 16) :
    effect (.callAddr nnn) s = { s with
      stack := s.stack.set s.sp.val (s.pc + 2) h
      sp := ⟨s.sp.val + 1, by omega⟩
      pc := addrWord nnn } := by
  have hsp : (Fin.ofNat 17 (s.sp.val + 1)) = ⟨s.sp.val + 1, by omega⟩ :=
    Fin.ext (Nat.mod_eq_of_lt (by omega))
  have hst : s.stack.setIfInBounds s.sp.val (s.pc + 2) = s.stack.set s.sp.val (s.pc + 2) h :=
    Vector.ext fun k hk => by rw [Vector.getElem_setIfInBounds, Vector.getElem_set]
  simp only [effect, hsp, hst]

/-- `r` is one of the three endings of `i` from `s`: a fault, a hold, or completion. -/
def Ends (i : Instr) (s : State) (r : Result) : Prop :=
  (∃ c, faultOf i s = some c ∧ r = raise c s.advance) ∨
  (faultOf i s = none ∧ Held i s ∧ r = .next s.renewHost) ∨
  (faultOf i s = none ∧ ¬ Held i s ∧ r = complete (effect i s))

/-- An instruction whose one fault has the condition `P`. -/
theorem ends_of_condition {i : Instr} {s : State} {c : Cause} {P : Prop} [Decidable P]
    (hf : faultOf i s = if P then some c else none) (hi : ∀ x, i ≠ .ldVxK x)
    (h : (P ∧ exec i s = raise c s.advance) ∨ (¬ P ∧ exec i s = complete (effect i s))) :
    Ends i s (exec i s) := by
  rcases h with ⟨hp, he⟩ | ⟨hp, he⟩
  · exact .inl ⟨c, hf.trans (if_pos hp), he⟩
  · exact .inr (.inr ⟨hf.trans (if_neg hp), not_held_of_ne hi, he⟩)

/-- All that an instruction can answer. -/
theorem exec_cases (i : Instr) (s : State) : Ends i s (exec i s) := by
  cases i with
  | ret =>
    exact ends_of_condition rfl nofun ((exec_ret_cases s).imp_right fun ⟨h, he⟩ => ⟨by omega, he⟩)
  | callAddr nnn =>
    exact ends_of_condition rfl nofun ((exec_callAddr_cases nnn s).symm.imp_right fun ⟨h, he⟩ =>
      ⟨by omega, by rw [he, effect_callAddr nnn h]⟩)
  | drwVxVyN x y n =>
    refine ends_of_condition rfl nofun ((exec_drwVxVyN_cases x y n s).symm.imp ?_ ?_)
    · exact fun ⟨hn, h, he⟩ => ⟨⟨hn, h⟩, he⟩
    · rintro ⟨h, p, rfl, he⟩
      exact ⟨by omega, he⟩
  | skpVx x =>
    exact ends_of_condition rfl nofun ((exec_skpVx_cases x s).imp_right fun ⟨h, he⟩ => ⟨by omega, he⟩)
  | sknpVx x =>
    exact ends_of_condition rfl nofun ((exec_sknpVx_cases x s).imp_right fun ⟨h, he⟩ => ⟨by omega, he⟩)
  | ldBVx x =>
    exact ends_of_condition rfl nofun
      ((exec_ldBVx_cases x s).symm.imp_right fun ⟨h, he⟩ => ⟨by omega, he⟩)
  | ldMemVx x =>
    exact ends_of_condition rfl nofun
      ((exec_ldMemVx_cases x s).symm.imp_right fun ⟨h, he⟩ => ⟨by omega, he⟩)
  | ldVxMem x =>
    exact ends_of_condition rfl nofun
      ((exec_ldVxMem_cases x s).symm.imp_right fun ⟨h, he⟩ => ⟨by omega, he⟩)
  | ldVxK x =>
    rcases exec_ldVxK_cases x s with ⟨h, he⟩ | ⟨k, h, he⟩
    · exact .inr (.inl ⟨rfl, ⟨⟨x, rfl⟩, h⟩, he⟩)
    · refine .inr (.inr ⟨rfl, fun ⟨_, hp⟩ => by simp [h] at hp, ?_⟩)
      simp only [he, effect, h, Option.getD_some]
  | _ => exact .inr (.inr ⟨rfl, not_held_of_ne nofun, rfl⟩)

/-- Every fault is taken with `PC` past the instruction and nothing else changed (60_exceptions.md R150). -/
theorem exec_of_fault {i : Instr} {s : State} {c : Cause} (h : faultOf i s = some c) :
    exec i s = raise c s.advance := by
  rcases exec_cases i s with ⟨d, hd, he⟩ | ⟨hn, -, -⟩ | ⟨hn, -, -⟩
  · rw [he, Option.some.inj (h.symm.trans hd)]
  · cases h.symm.trans hn
  · cases h.symm.trans hn

theorem exec_of_held {i : Instr} {s : State} (h : Held i s) : exec i s = .next s.renewHost := by
  obtain ⟨⟨x, rfl⟩, hp⟩ := h
  simp only [exec, execLdVxK, hp]

theorem exec_of_completes {i : Instr} {s : State} (hf : faultOf i s = none) (hh : ¬ Held i s) :
    exec i s = complete (effect i s) := by
  rcases exec_cases i s with ⟨d, hd, -⟩ | ⟨-, hh', -⟩ | ⟨-, -, he⟩
  · cases hf.symm.trans hd
  · exact absurd hh' hh
  · exact he

/-- The next state of an instruction, by the way it ends. -/
theorem exec_next_cases {i : Instr} {s t : State} (h : exec i s = .next t) :
    (∃ c, faultOf i s = some c ∧ t = { s.advance with status := .faulted c }) ∨
    (faultOf i s = none ∧ Held i s ∧ t = s.renewHost) ∨
    (faultOf i s = none ∧ ¬ Held i s ∧ t = (effect i s).tick) := by
  rcases exec_cases i s with ⟨c, hc, he⟩ | ⟨hf, hh, he⟩ | ⟨hf, hh, he⟩
  · exact .inl ⟨c, hc, by simpa [raise_eq] using h.symm.trans he⟩
  · exact .inr (.inl ⟨hf, hh, by simpa using h.symm.trans he⟩)
  · exact .inr (.inr ⟨hf, hh, by simpa [complete_eq] using h.symm.trans he⟩)

/-! ## What `effect` leaves alone (10_state.md R12 to R21) -/

/-- R12: the destinations apart, only the six flag-writing instructions change a register, and of those `VF`. -/
theorem effect_reg {i : Instr} {s : State} {r : Reg} (hw : writesReg r i = false)
    (hf : r = vf → writesFlag i = false) : (effect i s).reg r = s.reg r := by
  have hvf : writesFlag i = true → r ≠ vf := fun h e => by simp [hf e] at h
  cases i with
  | ldVxMem x =>
    have hr : x.toNat < r.toNat := by simpa [writesReg] using hw
    simp only [effect, State.reg_setRegs, List.length_map, List.length_range]
    rw [dif_neg (by omega), State.reg_advance]
  | addVxVy x | subVxVy x | shrVx x | subnVxVy x | shlVx x =>
    have hx : r ≠ x := by simpa [writesReg] using hw
    simp [effect, hx, hvf rfl]
  | drwVxVyN => exact (State.reg_setFlag _ _ r).trans (if_neg (hvf rfl))
  | halt | cls | ret | callAddr | ldIAddr | addIVx | ldFVx | ldDtVx | ldStVx => rfl
  | ldVxKk x | addVxKk x | ldVxVy x | orVxVy x | andVxVy x | xorVxVy x | rndVxKk x | ldVxDt x | ldVxK x =>
    have hx : r ≠ x := by simpa [writesReg] using hw
    simp [effect, hx]
  | jpAddr | jpV0Addr | seVxKk | sneVxKk | seVxVy | sneVxVy | skpVx | sknpVx | ldBVx | ldMemVx =>
    simp [effect]

theorem flagByte_zero_or_one (b : Bool) : flagByte b = 0 ∨ flagByte b = 1 := by
  cases b
  · exact .inl rfl
  · exact .inr rfl

/-- R12: `VF` ends as a flag where it is not also the destination. -/
theorem effect_flag {i : Instr} {s : State} (hf : writesFlag i = true) (hw : writesReg vf i = false) :
    ∃ b, (effect i s).reg vf = flagByte b := by
  cases i with
  | addVxVy | drwVxVyN => exact ⟨_, State.reg_setFlag _ _ vf⟩
  | subVxVy x | shrVx x | subnVxVy x | shlVx x =>
    have hx : vf ≠ x := by simpa [writesReg] using hw
    exact ⟨_, (State.reg_setReg _ x _ vf).trans ((if_neg hx).trans (State.reg_setFlag _ _ vf))⟩
  | _ => simp [writesFlag] at hf

/-- R13: three instructions write `I`. -/
theorem effect_i {i : Instr} {s : State} (h : writesI i = false) : (effect i s).i = s.i := by
  cases i with
  | ldIAddr | addIVx | ldFVx => simp [writesI] at h
  | _ => simp [effect]

/-- R15: only `CALL` and `RET` touch the call stack. -/
theorem effect_stackKept {i : Instr} {s : State} (h : usesStack i = false) : StackKept s (effect i s) := by
  cases i with
  | ret | callAddr => simp [usesStack] at h
  | _ => simp [effect, StackKept]

/-- R18: only `CLS` and `DRW` write the framebuffer. -/
theorem effect_fb {i : Instr} {s : State} (h : writesScreen i = false) : (effect i s).fb = s.fb := by
  cases i with
  | cls | drwVxVyN => simp [writesScreen] at h
  | _ => simp [effect]

theorem effect_font (i : Instr) (s : State) : (effect i s).font = s.font := by
  cases i <;> simp [effect]

/-- 20_memory.md R30: two instructions store to memory. -/
theorem effect_mem {i : Instr} {s : State} (h : storesToMemory i = false) : (effect i s).mem = s.mem := by
  cases i with
  | ldBVx | ldMemVx => simp [storesToMemory] at h
  | _ => simp [effect]

/-- R21: four instructions ask the host. -/
theorem effect_hostKept {i : Instr} {s : State} (h : asksHost i = false) : HostKept s (effect i s) := by
  cases i with
  | rndVxKk | skpVx | sknpVx | ldVxK => simp [asksHost] at h
  | _ => simp [effect, HostKept]

/-- R16, R17: two instructions write a timer; the others leave both to the tick. -/
theorem effect_timersKept {i : Instr} {s : State} (h : writesTimer i = false) :
    TimersKept s (effect i s) := by
  cases i with
  | ldDtVx | ldStVx => simp [writesTimer] at h
  | _ => simp [effect, TimersKept]

/-- R20: of the instructions that complete only `HALT` changes the status. -/
theorem effect_status (i : Instr) (s : State) :
    (effect i s).status = if i = .halt then .halted else s.status := by
  cases i <;> simp [effect]

/-! ## The bounds on `PC` (10_state.md R14) -/

/-- An advance from inside the bounds does not wrap. -/
theorem toNat_add_two {w : Word} (h : w.toNat ≤ 4096) : (w + 2).toNat = w.toNat + 2 := by
  rw [BitVec.toNat_add, show (2 : Word).toNat = 2 from rfl]
  omega

theorem State.toNat_skipIf_pc_le {s : State} (h : s.pc.toNat ≤ 4096) (b : Bool) :
    (s.skipIf b).pc.toNat ≤ 4098 := by
  cases b with
  | false => exact h.trans (by decide)
  | true => exact (toNat_add_two h).trans_le (by omega)

/-- R88: the sum of an address and a byte, the largest value `PC` can take. -/
theorem toNat_addrWord_add_byteWord (nnn : Addr) (b : Byte) :
    (addrWord nnn + byteWord b).toNat = nnn.toNat + b.toNat := by
  have := nnn.isLt
  have := b.isLt
  rw [BitVec.toNat_add, toNat_addrWord, toNat_byteWord]
  omega

theorem effect_pc_le {i : Instr} {s : State} (hs : PcBounded s) (hpc : s.pc.toNat ≤ 4094) :
    (effect i s).pc.toNat ≤ 0x10FE := by
  have hadv : s.advance.pc.toNat ≤ 4096 := (toNat_add_two (by omega)).trans_le (by omega)
  have hskip (b : Bool) : (s.advance.skipIf b).pc.toNat ≤ 0x10FE :=
    (State.toNat_skipIf_pc_le hadv b).trans (by decide)
  have haddr (nnn : Addr) : (addrWord nnn).toNat ≤ 0x10FE := by
    rw [toNat_addrWord]; omega
  obtain ⟨-, hstack⟩ := hs
  cases i with
  | ret => exact (hstack (s.sp.val - 1) (by omega)).trans (by decide)
  | jpAddr nnn | callAddr nnn => exact haddr nnn
  | jpV0Addr nnn =>
    simp only [effect, State.jump_pc, toNat_addrWord_add_byteWord]
    omega
  | seVxKk | sneVxKk | seVxVy | sneVxVy | skpVx | sknpVx => exact hskip _
  | ldBVx | ldMemVx =>
    simp only [effect, State.writeBytes_pc]
    omega
  | ldVxMem =>
    simp only [effect, State.setRegs_pc]
    omega
  | _ => exact hadv.trans (by decide)

/-- Every saved `PC` stays at most 4096: `CALL` saves the address after a word that was fetched. -/
theorem effect_stack_le {i : Instr} {s : State} (hs : PcBounded s) (hpc : s.pc.toNat ≤ 4094) (k : Nat)
    (hk : k < 16) : ((effect i s).stack[k]'hk).toNat ≤ 4096 := by
  obtain ⟨-, hstack⟩ := hs
  have hkept (h : StackKept s (effect i s)) : ((effect i s).stack[k]'hk).toNat ≤ 4096 := by
    simp only [h.2, hstack k hk]
  cases i with
  | callAddr nnn =>
    simp only [effect, Vector.getElem_setIfInBounds]
    split_ifs
    · rw [toNat_add_two (by omega)]
      omega
    · exact hstack k hk
  | ret => exact hstack k hk
  | _ => exact hkept (effect_stackKept rfl)

/-! ## The step (40_cycle_and_system.md R70) -/

theorem step_of_fetch_none {s : State} (hr : s.status = .running) (hf : s.fetch = none) :
    step s = fetchFault s := by
  simp only [step, hr, hf]

theorem step_of_illegal {s : State} {w : Word} (hr : s.status = .running) (hf : s.fetch = some w)
    (hd : decodeWord w = none) : step s = opcodeFault w s := by
  simp only [step, hr, hf, hd]

theorem step_of_decoded {s : State} {w : Word} {i : Instr} (hr : s.status = .running)
    (hf : s.fetch = some w) (hd : decodeWord w = some i) : step s = exec i s := by
  simp only [step, hr, hf, hd]

theorem step_of_halted {s : State} (h : s.status = .halted) : step s = .fault .halted := by
  simp only [step, h]

theorem step_of_faulted {s : State} {c : Cause} (h : s.status = .faulted c) :
    step s = .fault (.faulted c) := by
  simp only [step, h]

theorem status_running_of_step {s t : State} (h : step s = .next t) : s.status = .running := by
  cases hs : s.status with
  | running => rfl
  | halted => rw [step_of_halted hs] at h; cases h
  | faulted c => rw [step_of_faulted hs] at h; cases h

/-- The next state of a step: a fetch fault, an illegal word, or what the instruction leaves. -/
theorem step_next_cases {s t : State} (h : step s = .next t) :
    (s.fetch = none ∧ t = { s with status := .faulted (.oobFetch s.pc) }) ∨
    (∃ w, s.fetch = some w ∧ decodeWord w = none ∧
      t = { s.advance with status := .faulted (.unrecognizedOpcode w) }) ∨
    (∃ w i, s.fetch = some w ∧ decodeWord w = some i ∧ exec i s = .next t) := by
  rcases step_running (status_running_of_step h) with ⟨hf, hs⟩ | ⟨w, hf, hd, hs⟩ | ⟨w, i, hf, hd, hs⟩
  · exact .inl ⟨hf, by simpa [fetchFault, raise_eq] using h.symm.trans hs⟩
  · exact .inr (.inl ⟨w, hf, hd, by simpa [opcodeFault, raise_eq] using h.symm.trans hs⟩)
  · exact .inr (.inr ⟨w, i, hf, hd, hs.symm.trans h⟩)

/-- A word is fetched only from below the last byte of memory (R71). -/
theorem State.pc_le_of_fetch {s : State} {w : Word} (h : s.fetch = some w) : s.pc.toNat ≤ 4094 := by
  rw [State.fetch_eq] at h
  split_ifs at h
  omega

/-! ## `PcBounded` is kept -/

theorem PcBounded.of_eq {s t : State} (h : PcBounded s) (hpc : t.pc = s.pc) (hst : t.stack = s.stack) :
    PcBounded t := by
  simpa only [PcBounded, hpc, hst] using h

theorem PcBounded.advance {s : State} (h : PcBounded s) (hpc : s.pc.toNat ≤ 4094) : PcBounded s.advance :=
  ⟨(toNat_add_two (by omega)).trans_le (by omega), h.2⟩

theorem exec_pcBounded {i : Instr} {s t : State} (hs : PcBounded s) (hpc : s.pc.toNat ≤ 4094)
    (h : exec i s = .next t) : PcBounded t := by
  rcases exec_next_cases h with ⟨c, -, rfl⟩ | ⟨-, -, rfl⟩ | ⟨-, -, rfl⟩
  · exact (hs.advance hpc).of_eq rfl rfl
  · exact hs.of_eq rfl rfl
  · exact ⟨effect_pc_le hs hpc, effect_stack_le hs hpc⟩

/-- Settles O53: a word is fetched only at 4094 or below, and from there no instruction leaves the bounds. -/
theorem stepKeepsPcBounded : Obligations.StepKeepsPcBounded := by
  unfold Obligations.StepKeepsPcBounded
  intro s t hs h
  rcases step_next_cases h with ⟨-, rfl⟩ | ⟨w, hf, -, rfl⟩ | ⟨w, i, hf, -, he⟩
  · exact hs.of_eq rfl rfl
  · exact (hs.advance (State.pc_le_of_fetch hf)).of_eq rfl rfl
  · exact exec_pcBounded hs (State.pc_le_of_fetch hf) he

/-! ## Only `HALT` halts (10_state.md R20) -/

/-- The next state of an instruction is `HALTED` only after `HALT`, if it was not before. -/
theorem exec_status_eq_halted_iff {i : Instr} {s t : State} (hr : s.status = .running)
    (h : exec i s = .next t) : t.status = .halted ↔ i = .halt := by
  rcases exec_next_cases h with ⟨c, hc, rfl⟩ | ⟨-, ⟨⟨x, rfl⟩, -⟩, rfl⟩ | ⟨-, -, rfl⟩
  · exact ⟨nofun, fun hi => by subst hi; cases hc⟩
  · simp [hr]
  · simp [effect_status, hr]

/-- A decoded word is one that a row of the opcode map matches and builds the instruction from. -/
theorem selectsRow_of_decodeWord {w : Word} {i : Instr} (h : decodeWord w = some i) : SelectsRow w i := by
  obtain ⟨r, hr, hb⟩ := Option.map_eq_some_iff.mp h
  exact ⟨r, List.mem_of_find?_eq_some hr, List.find?_some hr, hb⟩

/-- Only the row of `HALT` builds `HALT`. -/
theorem eq_rowFix_of_build_eq_halt {r : Row} {w : Word} (hr : r ∈ opcodeMap) (hb : r.build w = .halt) :
    r = rowFix 0x0000 .halt := by
  revert r
  simp [opcodeMap, rowFix, rowAddr, rowXkk, rowXy, rowXyn, rowX]

theorem decodeWord_eq_halt_iff (w : Word) : decodeWord w = some .halt ↔ w = 0x0000 := by
  refine ⟨fun h => ?_, ?_⟩
  · obtain ⟨r, hr, hm, hb⟩ := selectsRow_of_decodeWord h
    rw [eq_rowFix_of_build_eq_halt hr hb, rowMatches_rowFix] at hm
    exact beq_iff_eq.mp hm
  · rintro rfl
    decide

/-- Settles O15: a fault never halts, an instruction halts when it is `HALT`, and only 0x0000 decodes to
that. -/
theorem onlyHaltHalts : Obligations.OnlyHaltHalts := by
  unfold Obligations.OnlyHaltHalts
  intro s t hr h
  rcases step_next_cases h with ⟨hf, rfl⟩ | ⟨w, hf, hd, rfl⟩ | ⟨w, i, hf, hd, he⟩
  · simp [hf]
  · have hw : w ≠ 0x0000 := fun e => by simp [(decodeWord_eq_halt_iff w).mpr e] at hd
    simpa [hf] using hw
  · rw [exec_status_eq_halted_iff hr he, hf, Option.some_inj, ← decodeWord_eq_halt_iff, hd, Option.some_inj]

/-! ## What each instruction leaves alone (10_state.md R12 to R21) -/

/-- Settles O47: a fault and a hold write no register, and a completing instruction by `effect_reg`. -/
theorem registersChangeOnlyAsDestinationOrFlag : Obligations.RegistersChangeOnlyAsDestinationOrFlag := by
  unfold Obligations.RegistersChangeOnlyAsDestinationOrFlag
  intro i s t r h hw hf
  rcases exec_next_cases h with ⟨c, -, rfl⟩ | ⟨-, -, rfl⟩ | ⟨-, -, rfl⟩
  · rfl
  · rfl
  · exact effect_reg hw hf

/-- Settles O48: none of the six that completes is a hold, and each leaves a flag byte. -/
theorem flagsAreZeroOrOne : Obligations.FlagsAreZeroOrOne := by
  unfold Obligations.FlagsAreZeroOrOne
  intro i s t h hf hw hnone
  rcases exec_next_cases h with ⟨c, hc, -⟩ | ⟨-, ⟨⟨x, rfl⟩, -⟩, -⟩ | ⟨-, -, rfl⟩
  · cases hnone.symm.trans hc
  · cases hf
  · obtain ⟨b, hb⟩ := effect_flag (s := s) hf hw
    rw [State.reg_tick, hb]
    exact flagByte_zero_or_one b

/-- Settles O49: a hold renews the host's answers, a fault sets `PC` and the status, and a completing
instruction keeps each part by the lemma on `effect` for it. -/
theorem onlyNamedInstructionsTouchEachPart : Obligations.OnlyNamedInstructionsTouchEachPart := by
  unfold Obligations.OnlyNamedInstructionsTouchEachPart
  intro i s t h
  rcases exec_next_cases h with ⟨c, -, rfl⟩ | ⟨-, ⟨⟨x, rfl⟩, -⟩, rfl⟩ | ⟨-, -, rfl⟩
  · exact ⟨fun _ => rfl, fun _ => ⟨rfl, rfl⟩, fun _ => rfl, fun _ => ⟨fun _ => rfl, rfl⟩,
      fun _ => ⟨rfl, rfl⟩, rfl⟩
  · exact ⟨fun _ => rfl, fun _ => ⟨rfl, rfl⟩, fun _ => rfl, fun _ => ⟨fun _ => rfl, rfl⟩, nofun, rfl⟩
  · exact ⟨effect_i, effect_stackKept, effect_fb,
      fun hm => ⟨State.readByte_congr (effect_font i s) (effect_mem hm), effect_font i s⟩,
      effect_hostKept, effect_font i s⟩

/-- Settles O50: the tick is applied to timers that the instruction itself has left alone. -/
theorem timersTickOncePerCompletedInstruction : Obligations.TimersTickOncePerCompletedInstruction := by
  unfold Obligations.TimersTickOncePerCompletedInstruction
  intro i s t h hw
  rcases exec_next_cases h with ⟨c, hc, rfl⟩ | ⟨hf, hh, rfl⟩ | ⟨hf, hh, rfl⟩
  · exact ⟨fun hn => (by cases hn.symm.trans hc), fun _ => ⟨rfl, rfl⟩⟩
  · exact ⟨fun _ hp => absurd hh.2 (hp hh.1), fun _ => ⟨rfl, rfl⟩⟩
  · obtain ⟨hdt, hst⟩ := effect_timersKept (s := s) hw
    refine ⟨fun _ _ => ⟨?_, ?_⟩, fun hor => ?_⟩
    · rw [State.tick_dt, toNat_tickDown, hdt]
    · rw [State.tick_st, toNat_tickDown, hst]
    · exact hor.elim (absurd hf) (absurd · hh)

/-! ## The sound timer (10_state.md R17) -/

/-- `s` with another value of `ST`. -/
def State.withSt (s : State) (b : Byte) : State := { s with st := b }

theorem State.setRegs_withSt (bs : List Byte) : ∀ (s : State) (k : Nat) (b : Byte),
    (s.withSt b).setRegs k bs = (s.setRegs k bs).withSt b := by
  induction bs with
  | nil => exact fun _ _ _ => rfl
  | cons v bs ih => exact fun s k b => ih { s with v := s.v.setIfInBounds k v } (k + 1) b

theorem State.writeBytes_withSt (bs : List Byte) : ∀ (s : State) (a : Nat) (b : Byte),
    (s.withSt b).writeBytes a bs = (s.writeBytes a bs).withSt b := by
  induction bs with
  | nil => exact fun _ _ _ => rfl
  | cons v bs ih => exact fun s a b => ih (s.writeByte a v) (a + 1) b

theorem State.skipIf_withSt (s : State) (c : Bool) (b : Byte) :
    (s.withSt b).skipIf c = (s.skipIf c).withSt b := by
  cases c <;> rfl

theorem faultOf_withSt (i : Instr) (s : State) (b : Byte) : faultOf i (s.withSt b) = faultOf i s := by
  cases i <;> rfl

/-- What an instruction leaves but for `ST` does not depend on `ST`. -/
theorem effect_withSt (i : Instr) (s : State) (b : Byte) :
    ∃ b', effect i (s.withSt b) = (effect i s).withSt b' := by
  cases i with
  | ldStVx x => exact ⟨s.reg x, rfl⟩
  | seVxKk | sneVxKk | seVxVy | sneVxVy => exact ⟨b, State.skipIf_withSt s.advance _ b⟩
  | skpVx | sknpVx => exact ⟨b, congrArg State.renewHost (State.skipIf_withSt s.advance _ b)⟩
  | ldBVx | ldMemVx => exact ⟨b, State.writeBytes_withSt _ s.advance _ b⟩
  | ldVxMem => exact ⟨b, State.setRegs_withSt _ s.advance _ b⟩
  | _ => exact ⟨b, rfl⟩

theorem exec_withSt {i : Instr} {s t : State} (h : exec i s = .next t) (b : Byte) :
    ∃ b', exec i (s.withSt b) = .next (t.withSt b') := by
  rcases exec_next_cases h with ⟨c, hc, rfl⟩ | ⟨-, hh, rfl⟩ | ⟨hf, hh, rfl⟩
  · exact ⟨b, exec_of_fault ((faultOf_withSt i s b).trans hc)⟩
  · exact ⟨b, exec_of_held (s := s.withSt b) hh⟩
  · obtain ⟨b', hb⟩ := effect_withSt i s b
    exact ⟨tickDown b', (exec_of_completes ((faultOf_withSt i s b).trans hf) hh).trans (by rw [hb]; rfl)⟩

/-- Settles O51: fetch, decoding and the way the instruction ends do not look at `ST`, and what it leaves
differs in `ST` alone. -/
theorem soundTimerIsNeverRead : Obligations.SoundTimerIsNeverRead := by
  unfold Obligations.SoundTimerIsNeverRead
  intro s t b h
  have hr : (s.withSt b).status = .running := status_running_of_step (s := s) h
  rcases step_next_cases h with ⟨hf, rfl⟩ | ⟨w, hf, hd, rfl⟩ | ⟨w, i, hf, hd, he⟩
  · exact ⟨b, step_of_fetch_none hr hf⟩
  · exact ⟨b, step_of_illegal hr hf hd⟩
  · obtain ⟨b', hb⟩ := exec_withSt he b
    exact ⟨b', (step_of_decoded hr hf hd).trans hb⟩

/-! ## Reset (10_state.md R23) and the stopped core (R20) -/

/-- Settles O1: an unlisted byte of memory reads as the font or as zero. -/
theorem resetLeavesSpecValues : Obligations.ResetLeavesSpecValues := by
  unfold Obligations.ResetLeavesSpecValues
  refine ⟨fun f => ⟨fun r => ?_, rfl, rfl, fun k h => ?_, rfl, rfl, rfl, pixel_blankScreen,
    fun a h => ?_, fun a h => ?_, rfl⟩, Config.defaultFont, rfl⟩
  · exact Vector.getElem_replicate _
  · exact Vector.getElem_replicate _
  · exact (State.readByte_resetWith f a).trans (dif_pos h)
  · exact (State.readByte_resetWith f a).trans (dif_neg (by omega))

/-- Settles O2: no cell is listed at reset, and every saved `PC` is 0. -/
theorem invariantsHoldAtReset : Obligations.InvariantsHoldAtReset := by
  unfold Obligations.InvariantsHoldAtReset
  refine fun f => ⟨State.wf_resetWith f, show (0x200 : Word).toNat ≤ 0x10FE by decide, fun k h => ?_⟩
  rw [show (State.resetWith f).stack[k] = 0 from Vector.getElem_replicate _]
  decide

/-- Settles O13, by the two equations of `step` for a stopped core. -/
theorem stoppedCoreTakesNoStep : Obligations.StoppedCoreTakesNoStep := by
  unfold Obligations.StoppedCoreTakesNoStep
  exact fun s => ⟨step_of_halted, fun c => step_of_faulted⟩

end Sys2Proof.Machine

namespace Sys2Proof.Machine

/-! ## The canonical form of memory (20_memory.md R30, 10_state.md R19) -/

theorem MemCanonical.of_eq {s t : State} (h : MemCanonical s) (hf : t.font = s.font) (hm : t.mem = s.mem) :
    MemCanonical t := by
  simpa only [MemCanonical, hf, hm] using h

theorem MemCanonical.writeBytes {s : State} (h : MemCanonical s) {a : Nat} {bs : List Byte}
    (hb : a + bs.length ≤ 4096) : MemCanonical (s.writeBytes a bs) :=
  State.wf_writeBytes bs h hb

@[simp] theorem length_bcdDigits (b : Byte) : (bcdDigits b).length = 3 := rfl

/-- The two stores write inside memory, since they did not fault; every other instruction leaves memory alone. -/
theorem effect_memCanonical {i : Instr} {s : State} (hs : MemCanonical s) (hf : faultOf i s = none) :
    MemCanonical (effect i s) := by
  have hadv : MemCanonical s.advance := hs
  cases i with
  | ldBVx x =>
    have hb : s.i.toNat + 2 ≤ 4095 := by simpa [faultOf] using hf
    exact hadv.writeBytes (by rw [length_bcdDigits]; omega)
  | ldMemVx x =>
    have hb : s.i.toNat + x.toNat ≤ 4095 := by simpa [faultOf] using hf
    exact hadv.writeBytes (by rw [State.length_regsUpTo]; omega)
  | _ => exact hs.of_eq (effect_font _ s) (effect_mem rfl)

theorem exec_memCanonical {i : Instr} {s t : State} (hs : MemCanonical s) (h : exec i s = .next t) :
    MemCanonical t := by
  rcases exec_next_cases h with ⟨c, -, rfl⟩ | ⟨-, -, rfl⟩ | ⟨hf, -, rfl⟩
  · exact hs.of_eq rfl rfl
  · exact hs.of_eq rfl rfl
  · exact (effect_memCanonical hs hf).of_eq rfl rfl

/-- Settles O52: a fault of the step changes no memory, and an instruction keeps the form. -/
theorem stepKeepsMemoryCanonical : Obligations.StepKeepsMemoryCanonical := by
  unfold Obligations.StepKeepsMemoryCanonical
  intro s t hs h
  rcases step_next_cases h with ⟨-, rfl⟩ | ⟨w, -, -, rfl⟩ | ⟨w, i, -, -, he⟩
  · exact hs.of_eq rfl rfl
  · exact hs.of_eq rfl rfl
  · exact exec_memCanonical hs he

/-! ## The checked accesses (20_memory.md R32, R33, D12) -/

theorem State.memRead_of_le {s : State} {a n : Nat} (h : a + n ≤ 4096) :
    s.memRead a n = some ((List.range n).map fun k => s.readByte (a + k)) := by
  rw [State.memRead_eq, if_pos (.inr h)]

theorem State.memRead_of_lt {s : State} {a n : Nat} (hn : 1 ≤ n) (h : 4096 < a + n) :
    s.memRead a n = none := by
  rw [State.memRead_eq, if_neg (by omega)]

theorem State.memWrite_singleton_of_le {s : State} {a : Nat} (h : a ≤ 4095) (v : Byte) :
    s.memWrite a [v] = some (s.writeByte a v) := by
  rw [State.memWrite_eq, if_pos (.inr (Nat.succ_le_succ h))]
  rfl

theorem State.memWrite_singleton_of_lt {s : State} {a : Nat} (h : 4095 < a) (v : Byte) :
    s.memWrite a [v] = none := by
  rw [State.memWrite_eq, if_neg (by simp only [List.length_singleton]; omega)]

/-- R34: a fetch inside memory is big-endian. -/
theorem State.fetch_of_le {s : State} (h : s.pc.toNat + 1 ≤ 4095) :
    s.fetch = some (s.readByte s.pc.toNat ++ s.readByte (s.pc.toNat + 1)) := by
  rw [State.fetch_eq, if_pos h, wordOfBytes]

/-- Settles O36, by what each access answers on either side of its bound. -/
theorem memoryPrimitives : Obligations.MemoryPrimitives := by
  unfold Obligations.MemoryPrimitives
  refine fun s a => ⟨fun n hn h => ⟨_, State.memRead_of_le (by omega), by simp, by simp⟩,
    fun n hn h => State.memRead_of_lt hn (by omega),
    fun v h => ⟨_, State.memWrite_singleton_of_le h v, ?_, fun b hb => ?_⟩,
    fun v h => State.memWrite_singleton_of_lt h v, State.fetch_of_le⟩
  · rw [State.readByte_writeByte, if_pos rfl]
  · rw [State.readByte_writeByte, if_neg hb]

/-! ## Self-modifying code (20_memory.md R41) -/

/-- Once the registers `V[0]` to `V[x]` have been written from `a` on, each is read back at its place. -/
theorem State.readByte_writeBytes_regsUpTo (s u : State) (a : Nat) {x r : Reg} (h : r.toNat ≤ x.toNat) :
    (u.writeBytes a (s.regsUpTo x)).readByte (a + r.toNat) = s.reg r := by
  have hlt : r.toNat < (s.regsUpTo x).length := by rw [State.length_regsUpTo]; omega
  rw [State.readByte_writeBytes, dif_pos (by omega)]
  simp only [Nat.add_sub_cancel_left, State.getElem_regsUpTo s x r hlt]

/-- 43_memory_timer_bcd.md R109: what `LD [I],Vx` leaves when it stores inside memory. -/
theorem eq_of_exec_ldMemVx {s t : State} {x : Reg} (hx : s.i.toNat + x.toNat ≤ 4095)
    (h : exec (.ldMemVx x) s = .next t) : t = (s.advance.writeBytes s.i.toNat (s.regsUpTo x)).tick := by
  rcases exec_ldMemVx_cases x s with ⟨-, he⟩ | ⟨hlt, -⟩
  · simpa [complete_eq] using h.symm.trans he
  · omega

/-- Settles O37: the two bytes under `PC` are two successive registers that were stored. -/
theorem storeIsSeenByNextFetch : Obligations.StoreIsSeenByNextFetch := by
  unfold Obligations.StoreIsSeenByNextFetch
  intro s t x k k' hx h hk hkx hpc
  have hread {r : Reg} (hr : r.toNat ≤ x.toNat) : t.readByte (s.i.toNat + r.toNat) = s.reg r := by
    rw [eq_of_exec_ldMemVx hx h, State.readByte_tick, State.readByte_writeBytes_regsUpTo s _ _ hr]
  rw [State.fetch_of_le (by omega), hpc, Nat.add_assoc, ← hk, hread hkx, hread (by omega)]

end Sys2Proof.Machine

namespace Sys2Proof.Machine

/-! ## The opcode map as a partial map from words (30_encoding.md R54, R55) -/

/-- Any two rows of the map differ in a bit that both masks keep. -/
theorem opcodeMap_pairwise_differ :
    opcodeMap.Pairwise fun r r' => r.bits &&& r'.mask ≠ r'.bits &&& r.mask := by
  decide

/-- On the bits that both masks keep, two rows that match one word agree with it, and so with each other. -/
theorem bits_and_mask_comm_of_rowMatches {w : Word} {r r' : Row} (h : rowMatches w r = true)
    (h' : rowMatches w r' = true) : r.bits &&& r'.mask = r'.bits &&& r.mask := by
  rw [← (rowMatches_iff w r).mp h, ← (rowMatches_iff w r').mp h', BitVec.and_assoc, BitVec.and_assoc,
    BitVec.and_comm r.mask]

/-- Settles O6: rows that match one word agree on their common mask, where any two rows differ. -/
theorem opcodeMapRowsDisjoint : Obligations.OpcodeMapRowsDisjoint := by
  unfold Obligations.OpcodeMapRowsDisjoint
  intro w j k hj hk hmj hmk
  have hdiffer := List.pairwise_iff_getElem.mp opcodeMap_pairwise_differ
  rcases Nat.lt_trichotomy j k with hlt | heq | hgt
  · exact absurd (bits_and_mask_comm_of_rowMatches hmj hmk) (hdiffer j k hj hk hlt)
  · exact heq
  · exact absurd (bits_and_mask_comm_of_rowMatches hmk hmj) (hdiffer k j hk hj hgt)

theorem eq_of_rowMatches {w : Word} {r r' : Row} (hr : r ∈ opcodeMap) (hr' : r' ∈ opcodeMap)
    (h : rowMatches w r = true) (h' : rowMatches w r' = true) : r = r' := by
  obtain ⟨j, hj, rfl⟩ := List.getElem_of_mem hr
  obtain ⟨k, hk, rfl⟩ := List.getElem_of_mem hr'
  obtain rfl : j = k := opcodeMapRowsDisjoint w j k hj hk h h'
  rfl

/-- R54: a word decodes to what the one row that matches it builds. -/
theorem decodeWord_eq_some_iff (w : Word) (i : Instr) : decodeWord w = some i ↔ SelectsRow w i := by
  refine ⟨selectsRow_of_decodeWord, ?_⟩
  rintro ⟨r, hr, hm, rfl⟩
  cases hfind : opcodeMap.find? (rowMatches w) with
  | none => exact absurd hm (List.find?_eq_none.mp hfind r hr)
  | some r' =>
    have hr' : r' = r := eq_of_rowMatches (List.mem_of_find?_eq_some hfind) hr (List.find?_some hfind) hm
    rw [decodeWord, hfind, hr', Option.map_some]

/-! ## Decoding an encoding (R52, R55) -/

theorem encode_selectsRow (i : Instr) : SelectsRow (encode i) i := by
  cases i with
  | halt => exact Laws.EncodingSelectsRow.halt
  | cls => exact Laws.EncodingSelectsRow.cls
  | ret => exact Laws.EncodingSelectsRow.ret
  | jpAddr nnn => exact Laws.EncodingSelectsRow.jpAddr nnn
  | callAddr nnn => exact Laws.EncodingSelectsRow.callAddr nnn
  | seVxKk x kk => exact Laws.EncodingSelectsRow.seVxKk x kk
  | sneVxKk x kk => exact Laws.EncodingSelectsRow.sneVxKk x kk
  | seVxVy x y => exact Laws.EncodingSelectsRow.seVxVy x y
  | ldVxKk x kk => exact Laws.EncodingSelectsRow.ldVxKk x kk
  | addVxKk x kk => exact Laws.EncodingSelectsRow.addVxKk x kk
  | ldVxVy x y => exact Laws.EncodingSelectsRow.ldVxVy x y
  | orVxVy x y => exact Laws.EncodingSelectsRow.orVxVy x y
  | andVxVy x y => exact Laws.EncodingSelectsRow.andVxVy x y
  | xorVxVy x y => exact Laws.EncodingSelectsRow.xorVxVy x y
  | addVxVy x y => exact Laws.EncodingSelectsRow.addVxVy x y
  | subVxVy x y => exact Laws.EncodingSelectsRow.subVxVy x y
  | shrVx x y => exact Laws.EncodingSelectsRow.shrVx x y
  | subnVxVy x y => exact Laws.EncodingSelectsRow.subnVxVy x y
  | shlVx x y => exact Laws.EncodingSelectsRow.shlVx x y
  | sneVxVy x y => exact Laws.EncodingSelectsRow.sneVxVy x y
  | ldIAddr nnn => exact Laws.EncodingSelectsRow.ldIAddr nnn
  | jpV0Addr nnn => exact Laws.EncodingSelectsRow.jpV0Addr nnn
  | rndVxKk x kk => exact Laws.EncodingSelectsRow.rndVxKk x kk
  | drwVxVyN x y n => exact Laws.EncodingSelectsRow.drwVxVyN x y n
  | skpVx x => exact Laws.EncodingSelectsRow.skpVx x
  | sknpVx x => exact Laws.EncodingSelectsRow.sknpVx x
  | ldVxDt x => exact Laws.EncodingSelectsRow.ldVxDt x
  | ldVxK x => exact Laws.EncodingSelectsRow.ldVxK x
  | ldDtVx x => exact Laws.EncodingSelectsRow.ldDtVx x
  | ldStVx x => exact Laws.EncodingSelectsRow.ldStVx x
  | addIVx x => exact Laws.EncodingSelectsRow.addIVx x
  | ldFVx x => exact Laws.EncodingSelectsRow.ldFVx x
  | ldBVx x => exact Laws.EncodingSelectsRow.ldBVx x
  | ldMemVx x => exact Laws.EncodingSelectsRow.ldMemVx x
  | ldVxMem x => exact Laws.EncodingSelectsRow.ldVxMem x

/-- Settles O4: the encoding selects a row that builds the instruction back, and that row is the only one
it matches. -/
theorem decodeOfEncode : Obligations.DecodeOfEncode := by
  unfold Obligations.DecodeOfEncode
  exact fun i => (decodeWord_eq_some_iff (encode i) i).mpr (encode_selectsRow i)

/-! ## Encoding a decoding (R51, R58) -/

theorem toNat_firstDigit (w : Word) : (w.extractLsb' 12 4).toNat = w.toNat / 4096 := by
  have := w.isLt
  rw [BitVec.extractLsb'_toNat, Nat.shiftRight_eq_div_pow]
  omega

theorem wordAddr_fields (w : Word) : wordAddr (w.extractLsb' 12 4) (fieldNnn w) = w := by
  apply BitVec.eq_of_toNat_eq
  rw [toNat_wordAddr, toNat_firstDigit, toNat_fieldNnn]
  omega

theorem wordXkk_fields (w : Word) : wordXkk (w.extractLsb' 12 4) (fieldX w) (fieldKk w) = w := by
  apply BitVec.eq_of_toNat_eq
  rw [toNat_wordXkk, toNat_firstDigit, toNat_fieldX, toNat_fieldKk]
  omega

/-- The encoder gives back every word that the row matches, from the instruction the row builds. -/
def RowEncodes (r : Row) : Prop := ∀ w : Word, rowMatches w r = true → encode (r.build w) = w

theorem rowEncodes_fix {bits : Word} {i : Instr} (hi : encode i = bits) : RowEncodes (rowFix bits i) := by
  intro w h
  rw [rowMatches_rowFix, beq_iff_eq] at h
  exact hi.trans h.symm

theorem rowEncodes_addr {bits : Word} {f : Addr → Instr} {op : Nibble}
    (hf : ∀ nnn, encode (f nnn) = wordAddr op nnn) (hb : bits = wordXyn op 0 0 0) :
    RowEncodes (rowAddr bits f) := by
  subst hb
  intro w h
  rw [← wordXyn_digits w, rowMatches_rowAddr, beq_iff_eq] at h
  rw [rowAddr, hf, ← h, wordAddr_fields]

theorem rowEncodes_xkk {bits : Word} {f : Reg → Byte → Instr} {op : Nibble}
    (hf : ∀ x kk, encode (f x kk) = wordXkk op x kk) (hb : bits = wordXyn op 0 0 0) :
    RowEncodes (rowXkk bits f) := by
  subst hb
  intro w h
  rw [← wordXyn_digits w, rowMatches_rowXkk, beq_iff_eq] at h
  rw [rowXkk, hf, ← h, wordXkk_fields]

theorem rowEncodes_xyn {bits : Word} {f : Reg → Reg → Nibble → Instr} {op : Nibble}
    (hf : ∀ x y n, encode (f x y n) = wordXyn op x y n) (hb : bits = wordXyn op 0 0 0) :
    RowEncodes (rowXyn bits f) := by
  subst hb
  intro w h
  rw [← wordXyn_digits w, rowMatches_rowXyn, beq_iff_eq] at h
  rw [rowXyn, hf, ← h, wordXyn_digits]

theorem rowEncodes_xy {bits : Word} {f : Reg → Reg → Instr} {op n : Nibble}
    (hf : ∀ x y, encode (f x y) = wordXyn op x y n) (hb : bits = wordXyn op 0 0 n) :
    RowEncodes (rowXy bits f) := by
  subst hb
  intro w h
  rw [← wordXyn_digits w, rowMatches_rowXy, Bool.and_eq_true, beq_iff_eq, beq_iff_eq] at h
  obtain ⟨hop, hn⟩ := h
  rw [rowXy, hf, ← hop, ← hn, wordXyn_digits]

theorem rowEncodes_x {bits : Word} {f : Reg → Instr} {op : Nibble} {kk : Byte}
    (hf : ∀ x, encode (f x) = wordXkk op x kk)
    (hb : bits = wordXyn op 0 (kk.extractLsb' 4 4) (kk.extractLsb' 0 4)) : RowEncodes (rowX bits f) := by
  subst hb
  intro w h
  rw [← wordXyn_digits w, rowMatches_rowX, Bool.and_eq_true, Bool.and_eq_true, beq_iff_eq, beq_iff_eq,
    beq_iff_eq] at h
  obtain ⟨⟨hop, hy⟩, hn⟩ := h
  rw [rowX, hf, wordXkk_eq, ← hop, ← hy, ← hn, wordXyn_digits]

/-- Each row and the encoder agree on the fixed digits; the rows stand in the order of R55. -/
theorem rowEncodes_of_mem : ∀ r ∈ opcodeMap, RowEncodes r := by
  simp only [opcodeMap, List.cons_append, List.nil_append, List.forall_mem_cons]
  exact ⟨rowEncodes_fix rfl, rowEncodes_fix rfl, rowEncodes_fix rfl,
    rowEncodes_addr (fun _ => rfl) rfl, rowEncodes_addr (fun _ => rfl) rfl,
    rowEncodes_xkk (fun _ _ => rfl) rfl, rowEncodes_xkk (fun _ _ => rfl) rfl, rowEncodes_xy (fun _ _ => rfl) rfl,
    rowEncodes_xkk (fun _ _ => rfl) rfl, rowEncodes_xkk (fun _ _ => rfl) rfl,
    rowEncodes_xy (fun _ _ => rfl) rfl, rowEncodes_xy (fun _ _ => rfl) rfl, rowEncodes_xy (fun _ _ => rfl) rfl,
    rowEncodes_xy (fun _ _ => rfl) rfl, rowEncodes_xy (fun _ _ => rfl) rfl, rowEncodes_xy (fun _ _ => rfl) rfl,
    rowEncodes_xy (fun _ _ => rfl) rfl, rowEncodes_xy (fun _ _ => rfl) rfl, rowEncodes_xy (fun _ _ => rfl) rfl,
    rowEncodes_xy (fun _ _ => rfl) rfl,
    rowEncodes_addr (fun _ => rfl) rfl, rowEncodes_addr (fun _ => rfl) rfl,
    rowEncodes_xkk (fun _ _ => rfl) rfl, rowEncodes_xyn (fun _ _ _ => rfl) rfl,
    rowEncodes_x (fun _ => rfl) rfl, rowEncodes_x (fun _ => rfl) rfl,
    rowEncodes_x (fun _ => rfl) rfl, rowEncodes_x (fun _ => rfl) rfl, rowEncodes_x (fun _ => rfl) rfl,
    rowEncodes_x (fun _ => rfl) rfl, rowEncodes_x (fun _ => rfl) rfl, rowEncodes_x (fun _ => rfl) rfl,
    rowEncodes_x (fun _ => rfl) rfl, rowEncodes_x (fun _ => rfl) rfl, rowEncodes_x (fun _ => rfl) rfl,
    List.forall_mem_nil _⟩

/-- Settles O5, row by row of the map. -/
theorem encodeOfDecode : Obligations.EncodeOfDecode := by
  unfold Obligations.EncodeOfDecode
  intro w i h
  obtain ⟨r, hr, hm, rfl⟩ := selectsRow_of_decodeWord h
  exact rowEncodes_of_mem r hr w hm

/-! ## The masks of the formats as numbers (R52) -/

/-- A mask of whole digits masks each digit of the word. -/
theorem and_wordXyn (w : Word) (a b c d : Nibble) : w &&& wordXyn a b c d =
    wordXyn (w.extractLsb' 12 4 &&& a) (fieldX w &&& b) (fieldY w &&& c) (fieldN w &&& d) := by
  rw [← wordXyn_and, wordXyn_digits]

theorem toNat_and_F000 (w : Word) : (w &&& 0xF000).toNat = w.toNat / 4096 * 4096 := by
  rw [show (0xF000 : Word) = wordXyn 0xF 0 0 0 from rfl, and_wordXyn, toNat_wordXyn, ← toNat_firstDigit]
  simp [nibble_and_F]

theorem toNat_and_F00F (w : Word) : (w &&& 0xF00F).toNat = w.toNat / 4096 * 4096 + w.toNat % 16 := by
  rw [show (0xF00F : Word) = wordXyn 0xF 0 0 0xF from rfl, and_wordXyn, toNat_wordXyn, ← toNat_firstDigit,
    ← toNat_fieldN]
  simp [nibble_and_F]

theorem toNat_and_F0FF (w : Word) : (w &&& 0xF0FF).toNat = w.toNat / 4096 * 4096 + w.toNat % 256 := by
  rw [show (0xF0FF : Word) = wordXyn 0xF 0 0xF 0xF from rfl, and_wordXyn, toNat_wordXyn, ← toNat_firstDigit]
  simp [nibble_and_F, toNat_fieldY, toNat_fieldN]
  omega

theorem toNat_and_FFFF (w : Word) : (w &&& 0xFFFF).toNat = w.toNat :=
  congrArg BitVec.toNat BitVec.and_allOnes

/-! ## The illegal words (R56) -/

/-- A word is illegal when it differs from each row of the map under the row's mask. -/
theorem decodeWord_eq_none_iff (w : Word) :
    decodeWord w = none ↔ ∀ r ∈ opcodeMap, (w &&& r.mask).toNat ≠ r.bits.toNat := by
  simp only [decodeWord, Option.map_eq_none_iff, List.find?_eq_none, rowMatches_iff, ← BitVec.toNat_inj, ne_eq]

/-- Settles O7, first digit by first digit: at ten of them every word matches a row and none is illegal; the
other six have the rows of R56's table. -/
theorem illegalWordsAreExactlyTheTable : Obligations.IllegalWordsAreExactlyTheTable := by
  unfold Obligations.IllegalWordsAreExactlyTheTable
  intro w
  simp only [decodeWord_eq_none_iff, opcodeMap, List.cons_append, List.nil_append, List.forall_mem_cons, rowFix,
    rowAddr, rowXkk, rowXy, rowXyn, rowX, toNat_and_FFFF, toNat_and_F000, toNat_and_F00F, toNat_and_F0FF,
    illegalWord]
  have hlt : w.toNat / 4096 < 16 := by have := w.isLt; omega
  generalize hop : w.toNat / 4096 = op at hlt ⊢
  interval_cases op <;> simp
  -- What is left, in this order: 0nnn, 5xyn, 8xyn, 9xyn, Exkk, Fxkk.
  · omega
  · omega
  · omega
  · omega
  · omega
  · omega

/-- Settles O8: the decoder's answers on the vectors of 95_test_vectors.md 2.1. -/
theorem sampleWordsDecode : Obligations.SampleWordsDecode := by
  unfold Obligations.SampleWordsDecode
  decide

end Sys2Proof.Machine

namespace Sys2Proof.Machine

/-! ## One step of a running core (40_cycle_and_system.md R70 to R76) -/

/-- An instruction that faults, is held or completes leads to a next state all the same. -/
theorem exec_exists_next (i : Instr) (s : State) : ∃ t, exec i s = .next t := by
  rcases exec_cases i s with ⟨c, -, he⟩ | ⟨-, -, he⟩ | ⟨-, -, he⟩
  · exact ⟨_, he.trans (raise_eq c s.advance)⟩
  · exact ⟨_, he⟩
  · exact ⟨_, he.trans (complete_eq _)⟩

/-- The two faults of a step outside its instruction are next states too. -/
theorem step_exists_next {s : State} (hr : s.status = .running) : ∃ t, step s = .next t := by
  rcases step_running hr with ⟨-, hs⟩ | ⟨w, -, -, hs⟩ | ⟨w, i, -, -, hs⟩
  · exact ⟨_, hs.trans (raise_eq _ _)⟩
  · exact ⟨_, hs.trans (raise_eq _ _)⟩
  · rw [hs]
    exact exec_exists_next i s

/-- Settles O14, by the three things a step of a running core can answer. -/
theorem runningCoreAlwaysSteps : Obligations.RunningCoreAlwaysSteps := by
  unfold Obligations.RunningCoreAlwaysSteps
  exact fun s => step_exists_next

/-- Settles O9: inside memory the fetched word is the two bytes at `PC`. -/
theorem stepRunsDecodedInstruction : Obligations.StepRunsDecodedInstruction := by
  unfold Obligations.StepRunsDecodedInstruction
  exact fun s i hr hpc hd => step_of_decoded hr (State.fetch_of_le hpc) hd

/-- A `PC` without two bytes of memory under it fetches nothing (R71, D3). -/
theorem State.fetch_of_lt {s : State} (h : 4095 < s.pc.toNat + 1) : s.fetch = none := by
  rw [State.fetch_eq, if_neg (by omega)]

/-- Settles O11: the fault is taken with `PC` not advanced. -/
theorem fetchOutOfBoundsFaults : Obligations.FetchOutOfBoundsFaults := by
  unfold Obligations.FetchOutOfBoundsFaults
  exact fun s hr hpc => ⟨_, step_of_fetch_none hr (State.fetch_of_lt hpc), rfl⟩

theorem ticked_tick (s : State) : Ticked s s.tick := ⟨toNat_tickDown s.dt, toNat_tickDown s.st⟩

/-- Settles O45: `HALT` always completes, and is in none of the spec's lists of what writes what. -/
theorem haltStopsTheCore : Obligations.HaltStopsTheCore := by
  unfold Obligations.HaltStopsTheCore
  intro s
  have hcompletes : exec .halt s = .next (effect .halt s).tick :=
    exec_of_completes rfl (not_held_of_ne nofun)
  exact ⟨_, hcompletes, effect_status .halt s, rfl, ticked_tick (effect .halt s),
    fun r => effect_reg rfl fun _ => rfl, effect_i rfl, effect_stackKept rfl, ⟨effect_fb rfl, rfl⟩,
    ⟨State.readByte_congr (effect_font .halt s) (effect_mem rfl), effect_font .halt s⟩, effect_hostKept rfl⟩

/-! ## A placed instruction (log entry 20) -/

/-- The probe of the decoder decodes the word that placing the instruction stores. -/
theorem decodeTableWord_eq (nbits w : Nat) :
    decodeTableWord nbits w = decodeWord (BitVec.ofNat 16 (w % 2 ^ nbits)) := by
  simp only [decodeTableWord, tableBytes, bytesOfWord, decode, wordOfBytes_bytesOfWord]
  cases decodeWord (BitVec.ofNat 16 (w % 2 ^ nbits)) <;> rfl

/-- Settles O17: the placed word is the one fetched, and the probe has decoded that word. -/
theorem placedInstructionRuns : Obligations.PlacedInstructionRuns := by
  unfold Obligations.PlacedInstructionRuns
  intro s w i h
  rw [decodeTableWord_eq] at h
  exact step_of_decoded (s.status_withFetchWord 16 w) (s.fetch_withFetchWord 16 w) h

/-! ## The run loop (R77) -/

theorem run_succ_of_step {s t : State} (h : step s = .next t) (n : Nat) : run (n + 1) s = run n t := by
  simp only [run, h]

/-- D23: a stopped core stays as it is, however long the run. -/
theorem run_of_not_running {s : State} (h : s.status ≠ .running) (n : Nat) : run n s = s := by
  cases n with
  | zero => rfl
  | succ n =>
    cases hs : s.status with
    | running => exact absurd hs h
    | halted => simp only [run, step_of_halted hs]
    | faulted c => simp only [run, step_of_faulted hs]

/-- A run goes on where it left off. -/
theorem run_add (m n : Nat) (s : State) : run (m + n) s = run n (run m s) := by
  induction m generalizing s with
  | zero => rw [Nat.zero_add, run]
  | succ m ih =>
    by_cases hr : s.status = .running
    · obtain ⟨t, ht⟩ := step_exists_next hr
      rw [Nat.succ_add, run_succ_of_step ht, run_succ_of_step ht, ih]
    · simp only [run_of_not_running hr]

/-- Settles O16, by the equations of `run` for a core that steps and for one that has stopped. -/
theorem runEndsWhenStatusLeavesRunning : Obligations.RunEndsWhenStatusLeavesRunning := by
  unfold Obligations.RunEndsWhenStatusLeavesRunning
  exact fun m n s => ⟨rfl, fun t ht => run_succ_of_step ht n, run_add m n s, fun h => run_of_not_running h n⟩

end Sys2Proof.Machine

namespace Sys2Proof.Machine

/-! ## Where a control-flow instruction can act (41_control_flow.md)

Skips, jumps, `CALL` and `RET` write `PC` and the call stack only: what each completes with is `setControl` at some
values, and what they leave alone is said once, of that. -/

/-- `s` with other values of the call stack, its pointer and `PC`. -/
def State.setControl (s : State) (stack : Vector Word 16) (sp : Fin 17) (pc : Word) : State :=
  { s with stack := stack, sp := sp, pc := pc }

theorem State.setControl_tick_frame (s : State) (stack : Vector Word 16) (sp : Fin 17) (pc : Word) :
    let t := (s.setControl stack sp pc).tick
    RegsKept s t ∧ t.i = s.i ∧ ScreenKept s t ∧ MemKept s t ∧ HostKept s t ∧ t.status = s.status ∧ Ticked s t :=
  ⟨fun _ => rfl, rfl, ⟨rfl, rfl⟩, ⟨fun _ => rfl, rfl⟩, ⟨rfl, rfl⟩, rfl, ticked_tick (s.setControl stack sp pc)⟩

/-- A skip is a jump to one of the two instructions that follow (R80). -/
theorem State.advance_skipIf (s : State) (b : Bool) :
    s.advance.skipIf b = s.jump (if b then s.pc + 2 + 2 else s.pc + 2) := by
  cases b with
  | false => rfl
  | true => rfl

/-! ## `CALL` and `RET` on either side of their bounds (R83, R81) -/

theorem exec_callAddr_of_lt {s : State} (nnn : Addr) (h : s.sp.val < 16) : exec (.callAddr nnn) s =
    .next (s.setControl (s.stack.set s.sp.val (s.pc + 2) h) ⟨s.sp.val + 1, by omega⟩ (addrWord nnn)).tick := by
  rcases exec_callAddr_cases nnn s with ⟨_, he⟩ | ⟨hfull, -⟩
  · exact he
  · omega

theorem exec_callAddr_of_full {s : State} (nnn : Addr) (h : s.sp.val = 16) :
    exec (.callAddr nnn) s = raise .stackOverflow s.advance :=
  exec_of_fault (if_pos h)

theorem exec_ret_of_pos {s : State} (h : 0 < s.sp.val) : exec .ret s =
    .next (s.setControl s.stack ⟨s.sp.val - 1, by omega⟩ (s.stack[s.sp.val - 1]'(by omega))).tick := by
  rcases exec_ret_cases s with ⟨hempty, -⟩ | ⟨_, he⟩
  · omega
  · exact he

theorem exec_ret_of_empty {s : State} (h : s.sp.val = 0) : exec .ret s = raise .stackUnderflow s.advance :=
  exec_of_fault (if_pos h)

/-- Settles O20: below 16 frames the push, at 16 the fault, which leaves the stack alone. -/
theorem callPushesReturnAddress : Obligations.CallPushesReturnAddress := by
  unfold Obligations.CallPushesReturnAddress
  refine fun s nnn => ⟨decodeOfEncode (.callAddr nnn), fun h => ?_, fun h => ?_⟩
  · refine ⟨_, exec_callAddr_of_lt nnn h, toNat_addrWord nnn, rfl, fun k hk => ?_, State.setControl_tick_frame ..⟩
    simp only [State.tick_stack, State.setControl, Vector.getElem_set, eq_comm (a := k)]
  · exact ⟨_, exec_callAddr_of_full nnn h, rfl, rfl, rfl⟩

/-- Settles O21: with a frame the pop, without one the fault, which leaves the stack alone. -/
theorem returnPopsFrame : Obligations.ReturnPopsFrame := by
  unfold Obligations.ReturnPopsFrame
  refine fun s => ⟨decodeOfEncode .ret, fun h => ?_, fun h => ?_⟩
  · exact ⟨_, exec_ret_of_pos h, rfl, rfl, rfl, State.setControl_tick_frame ..⟩
  · exact ⟨_, exec_ret_of_empty h, rfl, rfl, rfl⟩

/-- Settles O22: the entry that `RET` pops is the one that `CALL` pushed. -/
theorem returnUndoesCall : Obligations.ReturnUndoesCall := by
  unfold Obligations.ReturnUndoesCall
  rintro s t u nnn h hcall ⟨hsp, hstack⟩
  obtain rfl := Host.Outcome.next.inj ((exec_callAddr_of_lt nnn h).symm.trans hcall)
  have husp : u.sp.val = s.sp.val + 1 := congrArg Fin.val hsp
  refine ⟨_, exec_ret_of_pos (by omega), ?_, Fin.ext ?_⟩
  · simp [State.setControl, hstack, husp]
  · simp [State.setControl, husp]

/-! ## Skips and jumps (R82, R84 to R88) -/

theorem setsPc_of_jump {i : Instr} {s : State} {target : Word} (h : exec i s = complete (s.jump target)) :
    SetsPc i s target := by
  obtain ⟨hregs, hi, hscreen, hmem, hhost, hstatus, hticked⟩ := s.setControl_tick_frame s.stack s.sp target
  exact ⟨_, h, rfl, hregs, hticked, ⟨hi, ⟨rfl, rfl⟩, hscreen, hmem, hstatus⟩, hhost⟩

/-- A skip taken when two bytes are equal. -/
theorem setsPc_of_skipIf_beq {i : Instr} {s : State} {a b : Byte}
    (h : exec i s = complete (s.advance.skipIf (a == b))) :
    SetsPc i s (if a.toNat = b.toNat then s.pc + 2 + 2 else s.pc + 2) := by
  rw [State.advance_skipIf] at h
  simpa only [beq_iff_eq, BitVec.toNat_inj] using setsPc_of_jump h

/-- A skip taken when two bytes differ. -/
theorem setsPc_of_skipIf_bne {i : Instr} {s : State} {a b : Byte}
    (h : exec i s = complete (s.advance.skipIf (a != b))) :
    SetsPc i s (if a.toNat = b.toNat then s.pc + 2 else s.pc + 2 + 2) := by
  rw [State.advance_skipIf] at h
  simpa only [bne_iff_ne, ne_eq, ite_not, BitVec.toNat_inj] using setsPc_of_jump h

/-- Settles O18: each of the four is a skip on the equality or the difference of two bytes. -/
theorem skipsCompareValues : Obligations.SkipsCompareValues := by
  unfold Obligations.SkipsCompareValues
  exact fun s x y kk => ⟨⟨decodeOfEncode (.seVxKk x kk), setsPc_of_skipIf_beq rfl⟩,
    ⟨decodeOfEncode (.sneVxKk x kk), setsPc_of_skipIf_bne rfl⟩,
    ⟨decodeOfEncode (.seVxVy x y), setsPc_of_skipIf_beq rfl⟩,
    ⟨decodeOfEncode (.sneVxVy x y), setsPc_of_skipIf_bne rfl⟩⟩

/-- Settles O19: the sum of an address and a byte is below 65536, so it does not wrap. -/
theorem jumpsGoToTarget : Obligations.JumpsGoToTarget := by
  unfold Obligations.JumpsGoToTarget
  exact fun s nnn => ⟨⟨decodeOfEncode (.jpAddr nnn), addrWord nnn, toNat_addrWord nnn, setsPc_of_jump rfl⟩,
    ⟨decodeOfEncode (.jpV0Addr nnn), _, toNat_addrWord_add_byteWord nnn (s.reg 0), setsPc_of_jump rfl⟩⟩

end Sys2Proof.Machine

namespace Sys2Proof.Machine

/-! ## What the arithmetic and logic instructions write (42_arith_logic.md)

Each completes with other values of the registers and, for `RND`, of the host's answers: `setData`. What they leave
alone is said once, of that. -/

/-- `s` past its instruction, with other values of the registers and of the host's answers. -/
def State.setData (s : State) (v : Vector Byte 16) (host : HostAnswers) (draws : Nat) : State :=
  { s.advance with v := v, host := host, draws := draws }

theorem State.setData_tick_frame (s : State) (v : Vector Byte 16) (host : HostAnswers) (draws : Nat) :
    let t := (s.setData v host draws).tick
    t.pc = s.pc + 2 ∧ Ticked s t ∧ QuietApartFromHost s t :=
  ⟨rfl, ticked_tick (s.setData v host draws), rfl, ⟨rfl, rfl⟩, ⟨rfl, rfl⟩, ⟨fun _ => rfl, rfl⟩, rfl⟩

theorem setsOneReg_of_setReg {i : Instr} {s : State} {x : Reg} {b : Byte}
    (h : exec i s = complete (s.advance.setReg x b)) : SetsOneReg i s x b := by
  obtain ⟨hpc, hticked, hquiet⟩ := s.setData_tick_frame (s.advance.setReg x b).v s.host s.draws
  refine ⟨_, h, ?_, fun r hr => ?_, hpc, hticked, hquiet, rfl, rfl⟩
  · simp
  · simp [hr]

/-! ## The values of the flags and of the results as numbers -/

theorem toNat_flagByte (b : Bool) : (flagByte b).toNat = b.toNat := by
  cases b with
  | false => rfl
  | true => rfl

theorem toNat_flagByte_carryFlag (a b : Byte) :
    (flagByte (carryFlag a b)).toNat = if a.toNat + b.toNat > 255 then 1 else 0 := by
  rw [toNat_flagByte, carryFlag, Bool.toNat, Bool.cond_decide]

theorem toNat_flagByte_greaterFlag (a b : Byte) :
    (flagByte (greaterFlag a b)).toNat = if a.toNat > b.toNat then 1 else 0 := by
  rw [toNat_flagByte, greaterFlag, Bool.toNat, Bool.cond_decide]

theorem toNat_flagByte_lowBit (a : Byte) : (flagByte (lowBit a)).toNat = a.toNat % 2 := by
  rw [toNat_flagByte, lowBit, BitVec.getLsbD, Nat.toNat_testBit, Nat.pow_zero, Nat.div_one]

theorem toNat_flagByte_highBit (a : Byte) : (flagByte (highBit a)).toNat = a.toNat / 128 := by
  have := a.isLt
  rw [toNat_flagByte, highBit, BitVec.getLsbD, Nat.toNat_testBit]
  omega

theorem toNat_sub_byte (a b : Byte) : (a - b).toNat = (a.toNat + 256 - b.toNat) % 256 := by
  have := b.isLt
  rw [BitVec.toNat_sub]
  omega

theorem toNat_shiftRight_one (a : Byte) : (a >>> 1).toNat = a.toNat / 2 := by
  rw [BitVec.toNat_ushiftRight, Nat.shiftRight_eq_div_pow, Nat.pow_one]

theorem toNat_shiftLeft_one (a : Byte) : (a <<< 1).toNat = a.toNat * 2 % 256 := by
  rw [BitVec.toNat_shiftLeft, Nat.shiftLeft_eq, Nat.pow_one]

/-- What the second effect of `SUB`, `SHR`, `SUBN` and `SHL` reads (R91, D7). -/
theorem State.toNat_reg_advance_setFlag (s : State) (g : Bool) (r : Reg) :
    ((s.advance.setFlag g).reg r).toNat = if r = vf then (flagByte g).toNat else (s.reg r).toNat := by
  rw [State.reg_setFlag, State.reg_advance, apply_ite BitVec.toNat]

/-- The difference that `SUB` and `SUBN` take of the registers after the flag write. -/
theorem State.toNat_sub_advance_setFlag (s : State) (g : Bool) (p q : Reg) :
    ((s.advance.setFlag g).reg p - (s.advance.setFlag g).reg q).toNat =
      ((if p = vf then (flagByte g).toNat else (s.reg p).toNat) + 256 -
        (if q = vf then (flagByte g).toNat else (s.reg q).toNat)) % 256 := by
  rw [toNat_sub_byte, State.toNat_reg_advance_setFlag, State.toNat_reg_advance_setFlag]

/-! ## The loads, the logic instructions and the random byte (R92 to R97, R103) -/

/-- Settles O23: each of the five is one register write. -/
theorem loadAndLogicSetVx : Obligations.LoadAndLogicSetVx := by
  unfold Obligations.LoadAndLogicSetVx
  exact fun s x y kk => ⟨⟨decodeOfEncode (.ldVxKk x kk), setsOneReg_of_setReg rfl⟩,
    ⟨decodeOfEncode (.ldVxVy x y), setsOneReg_of_setReg rfl⟩,
    ⟨decodeOfEncode (.orVxVy x y), setsOneReg_of_setReg rfl⟩,
    ⟨decodeOfEncode (.andVxVy x y), setsOneReg_of_setReg rfl⟩,
    ⟨decodeOfEncode (.xorVxVy x y), setsOneReg_of_setReg rfl⟩⟩

/-- Settles O24: one register write, of the sum of two bytes. -/
theorem addImmediateWrapsWithoutFlag : Obligations.AddImmediateWrapsWithoutFlag := by
  unfold Obligations.AddImmediateWrapsWithoutFlag
  exact fun s x kk => ⟨decodeOfEncode (.addVxKk x kk), _, BitVec.toNat_add (s.reg x) kk, setsOneReg_of_setReg rfl⟩

/-- Settles O29: the masked byte has no bit in common with the complement of its mask. -/
theorem randomByteIsMasked : Obligations.RandomByteIsMasked := by
  unfold Obligations.RandomByteIsMasked
  intro s x kk
  obtain ⟨hpc, hticked, hquiet⟩ := s.setData_tick_frame (s.advance.setReg x (s.host.random &&& kk)).v
    (Config.hostAnswers s.draws) (s.draws + 1)
  have hx : (s.advance.setReg x (s.host.random &&& kk)).reg x = s.host.random &&& kk := by simp
  have hmasked : s.host.random &&& kk &&& ~~~kk = 0 := by
    rw [BitVec.and_assoc, BitVec.and_not_self]
    exact BitVec.and_zero
  refine ⟨_, rfl, hx, (congrArg (· &&& ~~~kk) hx).trans hmasked, fun r hr => ?_, hpc, hticked, hquiet, rfl, rfl⟩
  simp [hr]

/-! ## The flag-writing instructions (R90, R91, R98 to R102) -/

/-- Settles O25: the flag is written last, so it stands when `x` is 15. -/
theorem addRegistersSetsCarry : Obligations.AddRegistersSetsCarry := by
  unfold Obligations.AddRegistersSetsCarry
  intro s x y
  obtain ⟨hpc, hticked, hquiet⟩ := s.setData_tick_frame
    ((s.advance.setReg x (s.reg x + s.reg y)).setFlag (carryFlag (s.reg x) (s.reg y))).v s.host s.draws
  refine ⟨_, rfl, fun hne => ?_, ?_, fun r hrx hrvf => ?_, hpc, hticked, hquiet, rfl, rfl⟩
  · simp [hne, BitVec.toNat_add]
  · simp [toNat_flagByte_carryFlag]
  · simp [hrx, hrvf]

/-- Flag, then result: `f` is the flag, and `n` the result when it goes to a register of its own; when `x` is 15 the
result `m` overwrites the flag (D7). -/
theorem completes_of_setFlag_setReg {i : Instr} {s : State} {x : Reg} {g : Bool} {b : Byte} {f n m : Nat}
    (h : exec i s = complete ((s.advance.setFlag g).setReg x b)) (hf : (flagByte g).toNat = f)
    (hn : x ≠ vf → b.toNat = n) (hm : x = vf → b.toNat = m) :
    ∃ t, exec i s = .next t ∧ (x ≠ vf → (t.reg vf).toNat = f ∧ (t.reg x).toNat = n) ∧
      (x = vf → (t.reg vf).toNat = m) ∧
      (∀ r : Reg, r ≠ x → r ≠ vf → t.reg r = s.reg r) ∧ t.pc = s.pc + 2 ∧ Ticked s t ∧ Quiet s t := by
  obtain ⟨hpc, hticked, hquiet⟩ := s.setData_tick_frame ((s.advance.setFlag g).setReg x b).v s.host s.draws
  refine ⟨_, h, fun hne => ⟨?_, ?_⟩, fun heq => ?_, fun r hrx hrvf => ?_, hpc, hticked, hquiet, rfl, rfl⟩
  · simp [hne.symm, hf]
  · simp [hn hne]
  · simp [heq, hm heq]
  · simp [hrx, hrvf]

/-- Settles O26: the difference is of the registers after the flag write. -/
theorem subtractSetsStrictFlag : Obligations.SubtractSetsStrictFlag := by
  unfold Obligations.SubtractSetsStrictFlag
  rintro s x y f b hf rfl
  rw [← toNat_flagByte_greaterFlag] at hf
  refine completes_of_setFlag_setReg rfl hf.symm (fun hne => ?_) (fun heq => ?_)
  · rw [State.toNat_sub_advance_setFlag, if_neg hne, hf]
  · rw [State.toNat_sub_advance_setFlag, if_pos heq, hf]

/-- Settles O27: as for `SUB`, with the operands the other way round. -/
theorem reverseSubtractSetsStrictFlag : Obligations.ReverseSubtractSetsStrictFlag := by
  unfold Obligations.ReverseSubtractSetsStrictFlag
  rintro s x y f b hf rfl
  rw [← toNat_flagByte_greaterFlag] at hf
  refine completes_of_setFlag_setReg rfl hf.symm (fun hne => ?_) (fun heq => ?_)
  · rw [State.toNat_sub_advance_setFlag, if_neg hne, hf]
  · rw [State.toNat_sub_advance_setFlag, if_pos heq, hf]

/-- Settles O28: for `x` = 15 the shift is of the bit shifted out, as the flag write left it. -/
theorem shiftsMoveOneBitIntoFlag : Obligations.ShiftsMoveOneBitIntoFlag := by
  unfold Obligations.ShiftsMoveOneBitIntoFlag
  intro s x y
  simp only [and_comm (a := (State.reg _ x).toNat = _)]
  constructor
  · refine completes_of_setFlag_setReg rfl (toNat_flagByte_lowBit _) (fun hne => ?_) (fun heq => ?_)
    · rw [toNat_shiftRight_one, State.toNat_reg_advance_setFlag, if_neg hne]
    · rw [toNat_shiftRight_one, State.toNat_reg_advance_setFlag, if_pos heq, toNat_flagByte_lowBit]
      omega
  · refine completes_of_setFlag_setReg rfl (toNat_flagByte_highBit _) (fun hne => ?_) (fun heq => ?_)
    · rw [toNat_shiftLeft_one, State.toNat_reg_advance_setFlag, if_neg hne]
    · have := (s.reg x).isLt
      rw [toNat_shiftLeft_one, State.toNat_reg_advance_setFlag, if_pos heq, toNat_flagByte_highBit]
      omega

end Sys2Proof.Machine

namespace Sys2Proof.Machine

/-! ## The address register (43_memory_timer_bcd.md R105 to R107) -/

/-- An instruction whose only effect is a write of `I`. -/
theorem setsI_of_advance {i : Instr} {s : State} {w : Word} (h : exec i s = complete { s.advance with i := w }) :
    SetsI i s w :=
  ⟨_, h, rfl, rfl, ticked_tick s, fun _ => rfl, ⟨rfl, rfl⟩, ⟨rfl, rfl⟩, ⟨fun _ => rfl, rfl⟩, ⟨rfl, rfl⟩, rfl⟩

/-- R106, D10: a byte is added to `I` modulo 65536. -/
theorem toNat_add_byteWord (w : Word) (b : Byte) : (w + byteWord b).toNat = (w.toNat + b.toNat) % 65536 := by
  rw [BitVec.toNat_add, toNat_byteWord]

/-- Settles O30: one write of `I`, of the address zero-extended. -/
theorem loadAddressSetsI : Obligations.LoadAddressSetsI := by
  unfold Obligations.LoadAddressSetsI
  exact fun s nnn => ⟨decodeOfEncode (.ldIAddr nnn), addrWord nnn, toNat_addrWord nnn, setsI_of_advance rfl⟩

/-- Settles O31: one write of `I` each; five times a byte is below 65536, so it does not wrap. -/
theorem addressArithmetic : Obligations.AddressArithmetic := by
  unfold Obligations.AddressArithmetic
  exact fun s x => ⟨⟨_, toNat_add_byteWord s.i (s.reg x), setsI_of_advance rfl⟩,
    ⟨_, toNat_glyphAddress (s.reg x), setsI_of_advance rfl⟩⟩

/-! ## The timers (R111 to R113, 40_cycle_and_system.md R74) -/

/-- What an instruction leaves ticks once when the instruction has left both timers alone. -/
theorem ticked_tick_of_timersKept {s u : State} (h : TimersKept s u) : Ticked s u.tick := by
  simpa only [Ticked, State.tick_dt, State.tick_st, h.1, h.2] using ticked_tick u

/-- `s` past its instruction, with other values of the timers, which the tick of the same step has yet to take. -/
def State.setTimers (s : State) (dt st : Byte) : State := { s.advance with dt := dt, st := st }

theorem State.setTimers_tick_frame (s : State) (dt st : Byte) :
    let t := (s.setTimers dt st).tick
    RegsKept s t ∧ t.pc = s.pc + 2 ∧ Quiet s t :=
  ⟨fun _ => rfl, rfl, ⟨rfl, ⟨rfl, rfl⟩, ⟨rfl, rfl⟩, ⟨fun _ => rfl, rfl⟩, rfl⟩, rfl, rfl⟩

/-- Settles O35: the load is of `DT` before the tick, and a timer written is ticked as it was written. -/
theorem timerInstructionsAndTheirTick : Obligations.TimerInstructionsAndTheirTick := by
  unfold Obligations.TimerInstructionsAndTheirTick
  refine fun s x => ⟨⟨decodeOfEncode (.ldVxDt x), setsOneReg_of_setReg rfl⟩,
    ⟨decodeOfEncode (.ldDtVx x), ?_⟩, ⟨decodeOfEncode (.ldStVx x), ?_⟩⟩
  · exact ⟨_, rfl, toNat_tickDown (s.reg x), toNat_tickDown s.st, s.setTimers_tick_frame (s.reg x) s.st⟩
  · exact ⟨_, rfl, toNat_tickDown (s.reg x), toNat_tickDown s.dt, s.setTimers_tick_frame s.dt (s.reg x)⟩

/-! ## The two stores (R108, R109)

Each completes with successive bytes written from `I` on. What that leaves alone is said once, of the write. -/

theorem State.writeBytes_tick_frame (s : State) (a : Nat) (bs : List Byte) :
    let t := (s.advance.writeBytes a bs).tick
    MemKeptOutside a bs.length s t ∧ RegsKept s t ∧ t.i = s.i ∧ StackKept s t ∧ ScreenKept s t ∧ HostKept s t ∧
      t.status = s.status ∧ t.pc = s.pc + 2 ∧ Ticked s t := by
  refine ⟨⟨fun b hb => ?_, ?_⟩, fun r => ?_, ?_, ⟨?_, ?_⟩, ⟨?_, ?_⟩, ⟨?_, ?_⟩, ?_, ?_,
    ticked_tick_of_timersKept ⟨?_, ?_⟩⟩
  · rw [State.readByte_tick, State.readByte_writeBytes, dif_neg (by omega), State.readByte_advance]
  all_goals simp

/-- The byte at place `k` of a list written from `a` on. -/
theorem State.readByte_writeBytes_add (s : State) (a : Nat) {bs : List Byte} {k : Nat} (hk : k < bs.length) :
    (s.writeBytes a bs).readByte (a + k) = bs[k] := by
  rw [State.readByte_writeBytes, dif_pos (by omega)]
  simp only [Nat.add_sub_cancel_left]

/-- The three digits are read back as numbers, each at its place `k`. -/
theorem State.toNat_readByte_writeBytes_bcdDigits (s : State) (a : Nat) {b : Byte} {k n : Nat}
    (h : [b.toNat / 100, b.toNat / 10 % 10, b.toNat % 10][k]? = some n) :
    ((s.writeBytes a (bcdDigits b)).readByte (a + k)).toNat = n := by
  rw [← toNat_bcdDigits, List.getElem?_map, Option.map_eq_some_iff] at h
  obtain ⟨d, hd, rfl⟩ := h
  obtain ⟨hk, rfl⟩ := List.getElem?_eq_some_iff.mp hd
  rw [State.readByte_writeBytes_add s a hk]

theorem exec_ldBVx_of_le {s : State} (x : Reg) (h : s.i.toNat + 2 ≤ 4095) :
    exec (.ldBVx x) s = .next (s.advance.writeBytes s.i.toNat (bcdDigits (s.reg x))).tick :=
  exec_of_completes (if_neg (by omega)) (not_held_of_ne nofun)

/-- Settles O32: inside memory the three digits are written, otherwise the fault, which leaves memory alone. -/
theorem bcdStoresThreeDigits : Obligations.BcdStoresThreeDigits := by
  unfold Obligations.BcdStoresThreeDigits
  refine fun s x => ⟨decodeOfEncode (.ldBVx x), fun h => ?_, fun h => ?_⟩
  · have hread := @State.toNat_readByte_writeBytes_bcdDigits s.advance s.i.toNat (s.reg x)
    exact ⟨_, exec_ldBVx_of_le x h, hread (k := 0) rfl, hread (k := 1) rfl, hread (k := 2) rfl,
      s.writeBytes_tick_frame s.i.toNat (bcdDigits (s.reg x))⟩
  · exact ⟨_, exec_of_fault (if_pos h), rfl, fun _ => rfl, rfl⟩

theorem exec_ldMemVx_of_le {s : State} (x : Reg) (h : s.i.toNat + x.toNat ≤ 4095) :
    exec (.ldMemVx x) s = .next (s.advance.writeBytes s.i.toNat (s.regsUpTo x)).tick :=
  exec_of_completes (if_neg (by omega)) (not_held_of_ne nofun)

/-- Settles O33: inside memory the registers are written, otherwise the fault, which leaves memory alone. -/
theorem storeRegistersToMemory : Obligations.StoreRegistersToMemory := by
  unfold Obligations.StoreRegistersToMemory
  refine fun s x => ⟨decodeOfEncode (.ldMemVx x), fun h => ?_, fun h => ?_⟩
  · rw [← State.length_regsUpTo s x]
    exact ⟨_, exec_ldMemVx_of_le x h, fun r hr => State.readByte_writeBytes_regsUpTo s s.advance s.i.toNat hr,
      s.writeBytes_tick_frame s.i.toNat (s.regsUpTo x)⟩
  · exact ⟨_, exec_of_fault (if_pos h), rfl, fun _ => rfl, rfl⟩

/-! ## The register load (R110) -/

theorem State.setRegs_tick_frame (s : State) (k : Nat) (bs : List Byte) :
    let t := (s.advance.setRegs k bs).tick
    t.pc = s.pc + 2 ∧ Ticked s t ∧ Quiet s t := by
  refine ⟨?_, ticked_tick_of_timersKept ⟨?_, ?_⟩, ⟨?_, ⟨?_, ?_⟩, ⟨?_, ?_⟩, ⟨fun a => ?_, ?_⟩, ?_⟩, ?_, ?_⟩
  all_goals simp

theorem exec_ldVxMem_of_le {s : State} (x : Reg) (h : s.i.toNat + x.toNat ≤ 4095) :
    exec (.ldVxMem x) s = .next (s.advance.setRegs 0
      ((List.range (x.toNat + 1)).map fun k => s.readByte (s.i.toNat + k))).tick :=
  exec_of_completes (if_neg (by omega)) (not_held_of_ne nofun)

/-- What each register holds once `n` registers from `V[0]` on are set to successive values of `f`. -/
theorem State.reg_setRegs_map_range (s : State) (n : Nat) (f : Nat → Byte) (r : Reg) :
    (s.setRegs 0 ((List.range n).map f)).reg r = if r.toNat < n then f r.toNat else s.reg r := by
  simp [State.reg_setRegs]

/-- Settles O34: inside memory the registers up to `x` are set, otherwise the fault, which leaves all of them alone. -/
theorem loadRegistersFromMemory : Obligations.LoadRegistersFromMemory := by
  unfold Obligations.LoadRegistersFromMemory
  refine fun s x => ⟨decodeOfEncode (.ldVxMem x), fun h => ?_, fun h => ?_⟩
  · refine ⟨_, exec_ldVxMem_of_le x h, fun r hr => ?_, fun r hr => ?_, s.setRegs_tick_frame 0 _⟩
    · rw [State.reg_tick, State.reg_setRegs_map_range, if_pos (by omega)]
    · rw [State.reg_tick, State.reg_setRegs_map_range, if_neg (by omega), State.reg_advance]
  · exact ⟨_, exec_of_fault (if_pos h), rfl, fun _ => rfl⟩

end Sys2Proof.Machine

namespace Sys2Proof.Machine

/-! ## What a draw leaves (44_display.md R120, R122, R124)

The sprite engine's `landingBit` is the spec's `spriteBit`; a `DRW` that completes leaves `drawn` at the framebuffer and
the collision flag of the engine. What that leaves alone is said once, of `drawn`. -/

/-- The bit that the engine lands on a pixel is the one the spec names. -/
theorem landingBit_eq_spriteBit (s : State) (x y : Reg) (n : Nibble) (r : Fin 32) (c : Fin 64) :
    landingBit ((s.reg x).toNat % 64) ((s.reg y).toNat % 32) 0
      ((List.range n.toNat).map fun k => s.readByte (s.i.toNat + k)) r c = spriteBit s x y n r c := by
  simp only [landingBit, spriteBit, rowsBelow, colsRight, Nat.mod_mod, Nat.sub_zero]
  generalize (r.val + 32 - (s.reg y).toNat % 32) % 32 = dr
  by_cases hdr : dr < n.toNat
  · simp [hdr]
  · simp [hdr]

/-- The bit of the sprite on a pixel is a matter of the origin, of `I` and of memory. -/
theorem spriteBit_congr {s t : State} {x y : Reg} (hx : t.reg x = s.reg x) (hy : t.reg y = s.reg y)
    (hi : t.i = s.i) (hmem : ∀ a, t.readByte a = s.readByte a) : spriteBit t x y = spriteBit s x y := by
  funext n r c
  simp only [spriteBit, hx, hy, hi, hmem]

/-- `s` past a draw that left the framebuffer `fb` and the collision flag `collision`, which it has displayed. -/
def State.drawn (s : State) (fb : Framebuffer) (collision : Bool) : State :=
  State.emitDisplay { s.advance.setFlag collision with fb := fb }

theorem State.reg_drawn (s : State) (fb : Framebuffer) (collision : Bool) (r : Reg) :
    (s.drawn fb collision).reg r = if r = vf then flagByte collision else s.reg r :=
  s.advance.reg_setFlag collision r

theorem State.drawn_tick_frame (s : State) (fb : Framebuffer) (collision : Bool) :
    let t := (s.drawn fb collision).tick
    RegsKeptBut vf s t ∧ t.display = t.fb :: s.display ∧ t.i = s.i ∧ StackKept s t ∧ MemKept s t ∧
      HostKept s t ∧ t.status = s.status ∧ t.pc = s.pc + 2 ∧ Ticked s t :=
  ⟨fun r hr => (s.reg_drawn fb collision r).trans (if_neg hr), rfl, rfl, ⟨rfl, rfl⟩, ⟨fun _ => rfl, rfl⟩,
    ⟨rfl, rfl⟩, rfl, rfl, ticked_tick (s.drawn fb collision)⟩

/-- A draw whose sprite lies in memory XORs every pixel with the sprite's bit on it, and its flag records whether a 1
met a lit pixel. -/
theorem exec_drwVxVyN_of_le {s : State} (x y : Reg) {n : Nibble}
    (h : n.toNat = 0 ∨ s.i.toNat + n.toNat - 1 ≤ 4095) :
    ∃ fb collision, exec (.drwVxVyN x y n) s = .next (s.drawn fb collision).tick ∧
      (∀ r c, Framebuffer.pixel fb r c = (Framebuffer.pixel s.fb r c ^^ spriteBit s x y n r c)) ∧
      (collision = true ↔ ∃ r c, spriteBit s x y n r c = true ∧ Framebuffer.pixel s.fb r c = true) := by
  rcases exec_drwVxVyN_cases x y n s with ⟨-, p, rfl, he⟩ | ⟨hn, hi, -⟩
  · refine ⟨_, _, he, ?_⟩
    simp only [← landingBit_eq_spriteBit]
    refine drawSprite_spec _ _ _ s.fb ?_
    rw [List.length_map, List.length_range]
    omega
  · omega

/-! ## The display instructions (R121, R122, R124) -/

/-- Settles O39: the flag of the draw, as a byte, is 1 or 0. -/
theorem drawXorsSpriteAndFlagsCollision : Obligations.DrawXorsSpriteAndFlagsCollision := by
  unfold Obligations.DrawXorsSpriteAndFlagsCollision
  intro s x y n h
  obtain ⟨fb, collision, he, hpixel, hcollision⟩ := exec_drwVxVyN_of_le x y h
  have hvf : (s.drawn fb collision).tick.reg vf = flagByte collision := s.reg_drawn fb collision vf
  refine ⟨_, he, hpixel, fun hmet => ?_, fun hunmet => ?_, s.drawn_tick_frame fb collision⟩
  · rw [hvf, hcollision.mpr hmet]
    rfl
  · have hfalse : collision = false := Bool.eq_false_iff.mpr fun htrue => by
      obtain ⟨r, c, hbit, hlit⟩ := hcollision.mp htrue
      exact Bool.false_ne_true ((hunmet r c hbit).symm.trans hlit)
    rw [hvf, hfalse]
    rfl

/-- Settles O40: the second draw XORs every pixel with the same bit again, and finds under each 1 the opposite of what
the first found. -/
theorem drawTwiceRestoresFramebuffer : Obligations.DrawTwiceRestoresFramebuffer := by
  unfold Obligations.DrawTwiceRestoresFramebuffer
  intro s t x y n h ht hx hy
  obtain ⟨t', ht', hpixel, -, -, -, -, hi, -, ⟨hmem, -⟩, -⟩ := drawXorsSpriteAndFlagsCollision s x y n h
  obtain rfl := Host.Outcome.next.inj (ht'.symm.trans ht)
  obtain ⟨u, hu, hpixel', hmet, hunmet, -⟩ := drawXorsSpriteAndFlagsCollision t' x y n (by rwa [hi])
  rw [spriteBit_congr hx hy hi hmem] at hpixel' hmet hunmet
  refine ⟨u, hu, Framebuffer.ext_pixel fun r c => ?_, ?_, fun hlit => hunmet fun r c hbit => ?_⟩
  · rw [hpixel', hpixel, Bool.xor_assoc, Bool.xor_self, Bool.xor_false]
  · rintro ⟨r, c, hbit, hoff⟩
    exact hmet ⟨r, c, hbit, by rw [hpixel, hoff, hbit]; rfl⟩
  · rw [hpixel, hlit r c hbit, hbit]
    rfl

/-- R124, D16: of the instructions that complete only `DRW` emits a display event. -/
theorem effect_display {i : Instr} {s : State} (h : ∀ x y n, i ≠ .drwVxVyN x y n) :
    (effect i s).display = s.display := by
  cases i with
  | drwVxVyN x y n => exact absurd rfl (h x y n)
  | _ => simp [effect]

/-- Settles O41: a fault and a hold emit nothing, and a completing instruction only as a `DRW`. -/
theorem onlyDrawEmitsDisplayEvents : Obligations.OnlyDrawEmitsDisplayEvents := by
  unfold Obligations.OnlyDrawEmitsDisplayEvents
  intro i s t h
  rcases exec_next_cases h with ⟨c, hc, rfl⟩ | ⟨-, ⟨⟨x, rfl⟩, -⟩, rfl⟩ | ⟨hf, -, rfl⟩
  · exact ⟨fun _ hn => (by cases hn.symm.trans hc), fun _ => rfl⟩
  · exact ⟨nofun, fun _ => rfl⟩
  · refine ⟨?_, fun hor => effect_display (hor.resolve_right (absurd hf))⟩
    rintro ⟨x, y, n, rfl⟩ -
    rfl

/-- Settles O38: `CLS` always completes, with the blank screen. -/
theorem clearScreenClearsEveryPixel : Obligations.ClearScreenClearsEveryPixel := by
  unfold Obligations.ClearScreenClearsEveryPixel
  intro s
  have hcompletes : exec .cls s = .next (effect .cls s).tick :=
    exec_of_completes rfl (not_held_of_ne nofun)
  exact ⟨decodeOfEncode .cls, _, hcompletes, pixel_blankScreen, effect_display nofun,
    fun r => effect_reg rfl fun _ => rfl, effect_i rfl, effect_stackKept rfl,
    ⟨State.readByte_congr (effect_font .cls s) (effect_mem rfl), effect_font .cls s⟩, effect_hostKept rfl,
    effect_status .cls s, rfl, ticked_tick (effect .cls s)⟩

end Sys2Proof.Machine

namespace Sys2Proof.Machine

/-! ## The key skips (45_keypad.md R131, R132, R134) -/

/-- A byte that is a key's number names that key. -/
theorem setWidth_eq_of_toNat_eq {b : Byte} {k : Key} (h : b.toNat = k.toNat) : b.setWidth 4 = k := by
  rw [← BitVec.toNat_inj, BitVec.toNat_setWidth, h, Nat.mod_eq_of_lt k.isLt]

/-- A skip on the host's answer writes `PC`, ticks, and has the host's next answers be fresh ones. -/
theorem completes_of_skipIf_renewHost {i : Instr} {s : State} {b : Bool}
    (h : exec i s = complete (s.advance.skipIf b).renewHost) :
    ∃ t, exec i s = .next t ∧ t.pc = (if b then s.pc + 2 + 2 else s.pc + 2) ∧ RegsKept s t ∧ Ticked s t ∧
      QuietApartFromHost s t ∧ HostAsked s t := by
  rw [State.advance_skipIf] at h
  exact ⟨_, h, rfl, fun _ => rfl, ticked_tick_of_timersKept ⟨rfl, rfl⟩,
    ⟨rfl, ⟨rfl, rfl⟩, ⟨rfl, rfl⟩, ⟨fun _ => rfl, rfl⟩, rfl⟩, rfl, rfl⟩

/-- 60_exceptions.md R150: every fault of an instruction leaves `PC` past it and the status, and nothing else. -/
theorem faultLeaves_of_faultOf {i : Instr} {s : State} {c : Cause} (h : faultOf i s = some c) :
    ∃ t, exec i s = .next t ∧ FaultLeaves c (s.pc + 2) s t :=
  ⟨_, exec_of_fault h, rfl⟩

/-- Settles O42: a byte up to 15 is the key itself, so the skip is on the answer for that key; above 15 both fault. -/
theorem keySkipsAskTheHost : Obligations.KeySkipsAskTheHost := by
  unfold Obligations.KeySkipsAskTheHost
  refine fun s x => ⟨fun k hk => ?_, fun h => ⟨faultLeaves_of_faultOf (if_pos h), faultLeaves_of_faultOf (if_pos h)⟩⟩
  have hkey : ¬ 15 < (s.reg x).toNat := by omega
  obtain rfl := setWidth_eq_of_toNat_eq hk
  refine ⟨completes_of_skipIf_renewHost (exec_of_completes (if_neg hkey) (not_held_of_ne nofun)), ?_⟩
  simpa only [Bool.not_eq_true', ← Bool.not_eq_true, ite_not] using
    completes_of_skipIf_renewHost (exec_of_completes (i := .sknpVx x) (if_neg hkey) (not_held_of_ne nofun))

/-! ## The key wait (R133, D14) -/

theorem exec_ldVxK_of_pressed {s : State} {k : Key} (x : Reg) (h : s.host.pressed = some k) :
    exec (.ldVxK x) s = complete (s.advance.setReg x (keyByte k)).renewHost := by
  rcases exec_ldVxK_cases x s with ⟨hnone, -⟩ | ⟨k', hk', he⟩
  · cases h.symm.trans hnone
  · obtain rfl := Option.some.inj (h.symm.trans hk')
    exact he

/-- Settles O43: one register write, of the key's number, and the answers renewed. -/
theorem keyWaitCompletesOnKeyPress : Obligations.KeyWaitCompletesOnKeyPress := by
  unfold Obligations.KeyWaitCompletesOnKeyPress
  intro s x k h
  obtain ⟨hpc, hticked, hquiet⟩ := s.setData_tick_frame (s.advance.setReg x (keyByte k)).v
    (Config.hostAnswers s.draws) (s.draws + 1)
  refine ⟨_, exec_ldVxK_of_pressed x h, ?_, fun r hr => ?_, hpc, hticked, hquiet, rfl, rfl⟩
  · simp [toNat_keyByte]
  · simp [hr]

/-- Renewing the host's answers touches no element of the architectural state (10_state.md R10, R21). -/
theorem sameCore_renewHost (s : State) : SameCore s s.renewHost :=
  ⟨fun _ => rfl, ⟨rfl, ⟨rfl, rfl⟩, ⟨rfl, rfl⟩, ⟨fun _ => rfl, rfl⟩, rfl⟩, rfl, rfl, rfl⟩

/-- Settles O44: the step is held, which renews the host's answers and nothing more. -/
theorem keyWaitHoldsWithoutKeyPress : Obligations.KeyWaitHoldsWithoutKeyPress := by
  unfold Obligations.KeyWaitHoldsWithoutKeyPress
  exact fun s x h => ⟨_, exec_of_held ⟨⟨x, rfl⟩, h⟩, sameCore_renewHost s, rfl, rfl⟩

end Sys2Proof.Machine

namespace Sys2Proof.Machine

/-! ## The faults of an instruction (60_exceptions.md R141, R144 to R148, R150) -/

/-- Settles O46: the fault of the table is what fault entry leaves, a hold leaves the status alone, and of the
instructions that complete only `HALT` changes it. -/
theorem instructionsFaultExactlyByTheTable : Obligations.InstructionsFaultExactlyByTheTable := by
  unfold Obligations.InstructionsFaultExactlyByTheTable
  intro i s
  obtain ⟨t, ht⟩ := exec_exists_next i s
  refine ⟨t, ht, ?_⟩
  rcases exec_next_cases ht with ⟨c, hc, rfl⟩ | ⟨hf, ⟨⟨x, rfl⟩, -⟩, rfl⟩ | ⟨hf, -, rfl⟩
  · exact ⟨fun d hd => by rw [← Option.some.inj (hc.symm.trans hd)]; rfl, fun hn => by cases hn.symm.trans hc⟩
  · exact ⟨nofun, fun _ => rfl⟩
  · exact ⟨fun d hd => (by cases hf.symm.trans hd), fun _ => effect_status i s⟩

/-- An instruction of a running core that ends in a fault ends in the one that the table says. -/
theorem faultOf_of_status_faulted {i : Instr} {s t : State} {c : Cause} (hr : s.status = .running)
    (h : exec i s = .next t) (hc : t.status = .faulted c) : faultOf i s = some c := by
  rcases exec_next_cases h with ⟨d, hd, rfl⟩ | ⟨-, -, rfl⟩ | ⟨-, -, rfl⟩
  · exact hd.trans (congrArg some (Status.faulted.inj hc))
  · cases hr.symm.trans hc
  · rw [State.tick_status, effect_status, hr] at hc
    split at hc <;> cases hc

/-- R143: the fault of the fetch is no instruction's. -/
theorem faultOf_ne_oobFetch (i : Instr) (s : State) (pc : Word) : faultOf i s ≠ some (.oobFetch pc) := by
  cases i with
  | ret | callAddr | drwVxVyN | skpVx | sknpVx | ldBVx | ldMemVx | ldVxMem => simp [faultOf]
  | _ => nofun

/-! ## The faults of a step (R142, R143, R149, R150) -/

/-- Where a fault leaves the program counter (R150): only the fetch fault comes before the advance. -/
def pcAfterFault (c : Cause) (s : State) : Word :=
  match c with
  | .oobFetch _ => s.pc
  | _ => s.pc + 2

theorem pcAfterFault_of_faultOf {i : Instr} {s : State} {c : Cause} (h : faultOf i s = some c) :
    pcAfterFault c s = s.pc + 2 := by
  cases c with
  | oobFetch pc => exact absurd h (faultOf_ne_oobFetch i s pc)
  | _ => rfl

theorem step_faultLeaves {s t : State} {c : Cause} (h : step s = .next t) (hc : t.status = .faulted c) :
    FaultLeaves c (pcAfterFault c s) s t := by
  rcases step_next_cases h with ⟨-, rfl⟩ | ⟨w, -, -, rfl⟩ | ⟨w, i, -, -, he⟩
  · obtain rfl := Status.faulted.inj hc
    rfl
  · obtain rfl := Status.faulted.inj hc
    rfl
  · have hf : faultOf i s = some c := faultOf_of_status_faulted (status_running_of_step h) he hc
    obtain ⟨u, hu, hleaves⟩ := faultLeaves_of_faultOf hf
    obtain rfl := Host.Outcome.next.inj (hu.symm.trans he)
    rwa [pcAfterFault_of_faultOf hf]

/-- Settles O12: the fetch fault, the illegal word, and the fault of an instruction. -/
theorem faultChangesOnlyStatusAndPc : Obligations.FaultChangesOnlyStatusAndPc := by
  unfold Obligations.FaultChangesOnlyStatusAndPc
  exact fun s t c _ h hc => step_faultLeaves h hc

/-- Settles O10: an illegal word decodes to nothing, so the step is the opcode fault. -/
theorem illegalWordFaults : Obligations.IllegalWordFaults := by
  unfold Obligations.IllegalWordFaults
  intro s hr hpc hw
  have hd := (illegalWordsAreExactlyTheTable _).mpr hw
  exact ⟨_, step_of_illegal hr (State.fetch_of_le hpc) hd, rfl, rfl⟩

end Sys2Proof.Machine

namespace Sys2Proof.Machine

/-! ## The loader's contract (70_reset_and_hazards.md R160, R162) -/

theorem imageWellFormed_iff (image : List Byte) : imageWellFormed image = true ↔ image.length ≤ 3584 :=
  decide_eq_true_iff

theorem boot_of_le (f : Font) {image : List Byte} (h : image.length ≤ 3584) :
    boot f image = .next ((State.resetWith f).writeBytes 0x200 image) :=
  if_pos ((imageWellFormed_iff image).mpr h)

/-- D21: an image that does not fit is refused. -/
theorem boot_of_lt (f : Font) {image : List Byte} (h : 3584 < image.length) :
    boot f image = .refused .imageTooLong :=
  if_neg fun hw => absurd ((imageWellFormed_iff image).mp hw) (by omega)

theorem State.memKeptOutside_writeBytes (s : State) (a : Nat) (bs : List Byte) :
    MemKeptOutside a bs.length s (s.writeBytes a bs) := by
  refine ⟨fun b hb => ?_, State.writeBytes_font bs s a⟩
  rw [State.readByte_writeBytes, dif_neg (by omega)]

/-- Settles O3: an image that fits ends at most at 4096, so it is written inside memory onto the reset state,
whose every element but memory the write leaves alone. -/
theorem bootCopiesImage : Obligations.BootCopiesImage := by
  unfold Obligations.BootCopiesImage
  refine fun f image => ⟨fun h => ?_, boot_of_lt f⟩
  have hcanonical : MemCanonical (State.resetWith f) := State.wf_resetWith f
  have hinside : 0x200 + image.length ≤ 4096 := by omega
  refine ⟨_, boot_of_le f h, fun k hk => State.readByte_writeBytes_add _ _ hk,
    State.memKeptOutside_writeBytes _ _ image, hcanonical.writeBytes hinside,
    State.reg_writeBytes _ _ image, State.writeBytes_i image _ _, State.writeBytes_pc image _ _,
    ⟨?_, ?_⟩, ⟨?_, ?_⟩, ⟨?_, ?_⟩, ⟨?_, ?_⟩, State.writeBytes_status image _ _⟩
  all_goals simp

end Sys2Proof.Machine
